-- ==== Sys2Proof/Word.lean ====
section
/-! DEFINITION. The word types of the core: 8-bit register and memory bytes (R20, R35), 16-bit
`I`, `PC`, stack entries and opcodes (R24, R27, R30, R80), and the 4-bit register index (R81). -/

namespace Sys2Proof

/-- A general register, a timer or a byte of memory (R20, R28, R29, R35). -/
abbrev Byte := BitVec 8

/-- `I`, `PC`, a stack entry or an opcode (R24, R27, R30, R80). -/
abbrev Word := BitVec 16

/-- The index of a general register, 0 to 15: no index can be out of range (R21, R83). -/
abbrev RegIdx := Fin 16

end Sys2Proof
end

