-- ==== Sys2Proof/Machine/Flags.lean ====
section
/-! DEFINITION. The values an instruction puts into `VF` (R23): carry, no-borrow, the bit shifted out
and the collision. -/

namespace Sys2Proof.Machine

/-- A flag as a register byte: 1 or 0 (R23). -/
def flagByte (c : Bool) : Byte := if c then 1 else 0

/-- `8XY4`: 1 if the unwrapped sum exceeds 255 (R147). -/
def carryFlag (a b : Byte) : Byte := flagByte (decide (a.toNat + b.toNat > 255))

/-- `8XY5` on `(Vx, Vy)` and `8XY7` on `(Vy, Vx)`: 1 if the first operand is at least the second, that
is, no borrow (R148, R150). -/
def noBorrowFlag (a b : Byte) : Byte := flagByte (decide (a.toNat ≥ b.toNat))

/-- `8XY6`: the low bit of `Vy` (R149). -/
def lowBitFlag (b : Byte) : Byte := b &&& 1

/-- `8XYE`: the high bit of `Vy` (R151). -/
def highBitFlag (b : Byte) : Byte := (b >>> 7) &&& 1

end Sys2Proof.Machine
end

