-- ==== Sys2Proof/Config.lean ====
section
/-! DEFINITION. The parameters of the block (R8, R40) and the free random source (R160). The sizes
the spec fixes are plain numbers; the open ones (`W`, `H`, `FONT`) are the fields of `Config`, which
every state carries unchanged (assumption log 3). -/

namespace Sys2Proof

/-- The parameters fixed at construction (R8, R40): the framebuffer size of `new(width, height)` and
the 80 font bytes. They are parameters and not state; no transition writes them. -/
structure Config where
  /-- `W`, the framebuffer's width in pixels, at least 1 (R8, R260). -/
  width : Nat
  /-- `H`, the framebuffer's height in pixels, at least 1 (R8, R260). -/
  height : Nat
  /-- `FONT`, the 80 bytes of the font table at `0x000..0x04F` (R57, R58). -/
  font : List Byte
  deriving DecidableEq, Repr

/-- `MEM_SIZE`: "exactly 4096 addressable bytes" (R8, R35). -/
abbrev Config.memSize : Nat := 4096

/-- `PROG_BASE`: the load address and the first `PC` (R8, R60). -/
abbrev Config.progBase : Nat := 0x200

/-- The size of the font table: sixteen sprites of five bytes (R57, C4). -/
abbrev Config.fontSize : Nat := 80

/-- `STACK_DEPTH`: the call stack's capacity (R8, R30).
DESIGN CHOICE (the spec's own decision D3; assumption log 4). -/
abbrev Config.stackDepth : Nat := 16

/-- `NUM_KEYS`: the keypad's keys (R8, R38). -/
abbrev Config.numKeys : Nat := 16

/-- The injected random source of `CXNN` (R160, R243): the byte of the k-th draw. FREE VALUE: it has
no body, so nothing can be proved of any draw or of any relation between two (D19; assumption log 20). -/
opaque Config.randomByte : Nat → Byte

end Sys2Proof
end

