-- ==== Sys2Proof/Syntax.lean ====
section
/-! DEFINITION. The instructions, one constructor for each row of the opcode map (R85), and the host
transactions (R10, R250). Operands are typed by their encoding field (R81, R82). -/

namespace Sys2Proof

/-- The 34 instructions of the opcode map (R85). `x`, `y` are register indices, `nn` a byte, `nnn` a
12-bit address, `n` the sprite height (R81, R82). -/
inductive Instr where
  /-- `0?E0` `CLS` (R190). -/
  | cls
  /-- `0?EE` `RET` (R121). -/
  | ret
  /-- `1NNN` `JP addr` (R122). -/
  | jp (nnn : BitVec 12)
  /-- `2NNN` `CALL addr` (R123). -/
  | call (nnn : BitVec 12)
  /-- `3XNN` `SE Vx, byte` (R124). -/
  | seByte (x : RegIdx) (nn : Byte)
  /-- `4XNN` `SNE Vx, byte` (R125). -/
  | sneByte (x : RegIdx) (nn : Byte)
  /-- `5XY?` `SE Vx, Vy` (R126). -/
  | seReg (x y : RegIdx)
  /-- `6XNN` `LD Vx, byte` (R141). -/
  | ldByte (x : RegIdx) (nn : Byte)
  /-- `7XNN` `ADD Vx, byte` (R142). -/
  | addByte (x : RegIdx) (nn : Byte)
  /-- `8XY0` `LD Vx, Vy` (R143). -/
  | ldReg (x y : RegIdx)
  /-- `8XY1` `OR Vx, Vy` (R144). -/
  | orReg (x y : RegIdx)
  /-- `8XY2` `AND Vx, Vy` (R145). -/
  | andReg (x y : RegIdx)
  /-- `8XY3` `XOR Vx, Vy` (R146). -/
  | xorReg (x y : RegIdx)
  /-- `8XY4` `ADD Vx, Vy` (R147). -/
  | addReg (x y : RegIdx)
  /-- `8XY5` `SUB Vx, Vy` (R148). -/
  | subReg (x y : RegIdx)
  /-- `8XY6` `SHR Vx, Vy` (R149). -/
  | shr (x y : RegIdx)
  /-- `8XY7` `SUBN Vx, Vy` (R150). -/
  | subn (x y : RegIdx)
  /-- `8XYE` `SHL Vx, Vy` (R151). -/
  | shl (x y : RegIdx)
  /-- `9XY?` `SNE Vx, Vy` (R127). -/
  | sneReg (x y : RegIdx)
  /-- `ANNN` `LD I, addr` (R171). -/
  | ldI (nnn : BitVec 12)
  /-- `BNNN` `JP V0, addr` (R128). -/
  | jpV0 (nnn : BitVec 12)
  /-- `CXNN` `RND Vx, byte` (R160). -/
  | rnd (x : RegIdx) (nn : Byte)
  /-- `DXYN` `DRW Vx, Vy, nibble` (R191). -/
  | drw (x y : RegIdx) (n : BitVec 4)
  /-- `EX9E` `SKP Vx` (R200). -/
  | skp (x : RegIdx)
  /-- `EXA1` `SKNP Vx` (R201). -/
  | sknp (x : RegIdx)
  /-- `FX07` `LD Vx, DT` (R202). -/
  | ldVxDT (x : RegIdx)
  /-- `FX0A` `LD Vx, K` (R203). -/
  | ldVxK (x : RegIdx)
  /-- `FX15` `LD DT, Vx` (R204). -/
  | ldDTVx (x : RegIdx)
  /-- `FX18` `LD ST, Vx` (R205). -/
  | ldSTVx (x : RegIdx)
  /-- `FX1E` `ADD I, Vx` (R172). -/
  | addI (x : RegIdx)
  /-- `FX29` `LD F, Vx` (R174). -/
  | ldF (x : RegIdx)
  /-- `FX33` `LD B, Vx` (R175). -/
  | ldB (x : RegIdx)
  /-- `FX55` `LD [I], Vx` (R176). -/
  | storeRegs (x : RegIdx)
  /-- `FX65` `LD Vx, [I]` (R177). -/
  | loadRegs (x : RegIdx)
  deriving DecidableEq, Repr

/-- What a debug read asks for (R250). `pixel` is the renderer's read of `FB` (R11, R242). -/
inductive DebugRead where
  /-- `get_v(i)` (R21, R250). -/
  | register (i : Nat)
  /-- The index register `I`. -/
  | index
  /-- The program counter `PC`. -/
  | programCounter
  /-- The delay timer `DT`. -/
  | delayTimer
  /-- The sound timer `ST`. -/
  | soundTimer
  /-- The call stack, oldest entry first. -/
  | stack
  /-- `peek(addr)` (R52, R250). -/
  | memory (addr : Nat)
  /-- The run state. -/
  | runState
  /-- The renderer's `pixel(px, py)` (R11, R37). -/
  | pixel (px py : Nat)
  deriving DecidableEq, Repr

/-- The host transactions (R10), each one indivisible (R9). `run` is a loop of `step` and stands
beside them (R110). -/
inductive HostCall where
  /-- `new(width, height)` (R260). -/
  | construct (width height : Nat)
  /-- `load_program(bytes)` (R263). -/
  | loadProgram (bytes : List Byte)
  /-- `step()` (R100). -/
  | step
  /-- `tick()` (R236). -/
  | tick
  /-- `press_key(key)` (R238). -/
  | pressKey (key : Nat)
  /-- `release_key(key)` (R240). -/
  | releaseKey (key : Nat)
  /-- A debug read (R250). -/
  | debug (what : DebugRead)
  deriving DecidableEq, Repr

end Sys2Proof
end

