-- ==== Sys2Proof/WellFormed.lean ====
section
/-! DEFINITION. Well-formedness of the terms of the model: instructions, parameters and host calls. -/

namespace Sys2Proof

/-- Every operand lies in its encoding field (R81 to R83). The operand types (`RegIdx`, `Byte`,
`BitVec 12`, `BitVec 4`) carry these bounds, so that an ill-formed instruction cannot be written and
no check is left to make. -/
def Instr.wf : Instr → Bool
  | _ => true

/-- A legal construction (R260, R262): both sizes at least 1, and the font table of 80 bytes (R57). -/
def Config.wf (c : Config) : Bool :=
  decide (1 ≤ c.width) && decide (1 ≤ c.height) && decide (c.font.length = Config.fontSize)

/-- A legal host input: a key code of 0 to 15 (R239), a framebuffer of at least one pixel each way
(R262); every other call is legal. -/
def HostCall.wf : HostCall → Bool
  | .construct width height => decide (1 ≤ width) && decide (1 ≤ height)
  | .pressKey key => decide (key < Config.numKeys)
  | .releaseKey key => decide (key < Config.numKeys)
  | .loadProgram _ => true
  | .step => true
  | .tick => true
  | .debug _ => true

end Sys2Proof
end

