-- ==== Sys2Proof/Decode.lean ====
section
/-! DEFINITION. Decoding (R80 to R89) and encoding of the instructions, and the opcode map as rows of
mask and pattern (R85). -/

namespace Sys2Proof

/-! ## Fields of the word (R81) -/

/-- `op = w[15:12]` (R81). -/
def opField (w : Word) : BitVec 4 := w.extractLsb' 12 4

/-- `x = w[11:8]`, a register index (R81). -/
def xField (w : Word) : RegIdx := ⟨(w.extractLsb' 8 4).toNat, (w.extractLsb' 8 4).isLt⟩

/-- `y = w[7:4]`, a register index (R81). -/
def yField (w : Word) : RegIdx := ⟨(w.extractLsb' 4 4).toNat, (w.extractLsb' 4 4).isLt⟩

/-- `n = w[3:0]` (R81). -/
def nField (w : Word) : BitVec 4 := w.extractLsb' 0 4

/-- `nn = w[7:0]` (R81). -/
def nnField (w : Word) : Byte := w.extractLsb' 0 8

/-- `nnn = w[11:0]` (R81). -/
def nnnField (w : Word) : BitVec 12 := w.extractLsb' 0 12

/-! ## Decoding -/

/-- Why bytes are no instruction. -/
inductive DecodeError where
  /-- No row of the opcode map matches the word (R86). -/
  | unknownOpcode (w : Word)
  /-- Fewer than two bytes (R80); `step` never decodes so few, since the fetch checks them (R55). -/
  | truncated (available : Nat)
  deriving DecidableEq, Repr

/-- `op = 0x0`: dispatch on `nn`; the `x` nibble is ignored (R84, R87).
DESIGN CHOICE (the spec's own decision D24; assumption log 24). -/
def decodeGroup0 (w : Word) : Except DecodeError Instr :=
  if nnField w = 0xE0 then .ok .cls
  else if nnField w = 0xEE then .ok .ret
  else .error (.unknownOpcode w)

/-- `op = 0x8`: dispatch on `n` (R84). -/
def decodeGroup8 (w : Word) : Except DecodeError Instr :=
  if nField w = 0x0 then .ok (.ldReg (xField w) (yField w))
  else if nField w = 0x1 then .ok (.orReg (xField w) (yField w))
  else if nField w = 0x2 then .ok (.andReg (xField w) (yField w))
  else if nField w = 0x3 then .ok (.xorReg (xField w) (yField w))
  else if nField w = 0x4 then .ok (.addReg (xField w) (yField w))
  else if nField w = 0x5 then .ok (.subReg (xField w) (yField w))
  else if nField w = 0x6 then .ok (.shr (xField w) (yField w))
  else if nField w = 0x7 then .ok (.subn (xField w) (yField w))
  else if nField w = 0xE then .ok (.shl (xField w) (yField w))
  else .error (.unknownOpcode w)

/-- `op = 0xE`: dispatch on `nn` (R84). -/
def decodeGroupE (w : Word) : Except DecodeError Instr :=
  if nnField w = 0x9E then .ok (.skp (xField w))
  else if nnField w = 0xA1 then .ok (.sknp (xField w))
  else .error (.unknownOpcode w)

/-- `op = 0xF`: dispatch on `nn` (R84). -/
def decodeGroupF (w : Word) : Except DecodeError Instr :=
  if nnField w = 0x07 then .ok (.ldVxDT (xField w))
  else if nnField w = 0x0A then .ok (.ldVxK (xField w))
  else if nnField w = 0x15 then .ok (.ldDTVx (xField w))
  else if nnField w = 0x18 then .ok (.ldSTVx (xField w))
  else if nnField w = 0x1E then .ok (.addI (xField w))
  else if nnField w = 0x29 then .ok (.ldF (xField w))
  else if nnField w = 0x33 then .ok (.ldB (xField w))
  else if nnField w = 0x55 then .ok (.storeRegs (xField w))
  else if nnField w = 0x65 then .ok (.loadRegs (xField w))
  else .error (.unknownOpcode w)

/-- The decoder of R84, total on every word. The `n` nibble of `5XY?` and `9XY?` is ignored (R87;
DESIGN CHOICE, the spec's own decision D25; assumption log 24). -/
def decode (w : Word) : Except DecodeError Instr :=
  if opField w = 0x0 then decodeGroup0 w
  else if opField w = 0x1 then .ok (.jp (nnnField w))
  else if opField w = 0x2 then .ok (.call (nnnField w))
  else if opField w = 0x3 then .ok (.seByte (xField w) (nnField w))
  else if opField w = 0x4 then .ok (.sneByte (xField w) (nnField w))
  else if opField w = 0x5 then .ok (.seReg (xField w) (yField w))
  else if opField w = 0x6 then .ok (.ldByte (xField w) (nnField w))
  else if opField w = 0x7 then .ok (.addByte (xField w) (nnField w))
  else if opField w = 0x8 then decodeGroup8 w
  else if opField w = 0x9 then .ok (.sneReg (xField w) (yField w))
  else if opField w = 0xA then .ok (.ldI (nnnField w))
  else if opField w = 0xB then .ok (.jpV0 (nnnField w))
  else if opField w = 0xC then .ok (.rnd (xField w) (nnField w))
  else if opField w = 0xD then .ok (.drw (xField w) (yField w) (nField w))
  else if opField w = 0xE then decodeGroupE w
  else decodeGroupF w

/-- Two bytes as the big-endian word they store (R55, R56): the first byte is `w[15:8]`. -/
def wordOfBytes (hi lo : Byte) : Word := hi ++ lo

/-- The two bytes of a word in memory order, high byte first (R55, R56). -/
def bytesOfWord (w : Word) : List Byte := [w.extractLsb' 8 8, w.extractLsb' 0 8]

/-- The decoder over any bytes: one instruction and the bytes after it, or a named rejection. -/
def decodeBytes : List Byte → Except DecodeError (Instr × List Byte)
  | hi :: lo :: rest =>
    match decode (wordOfBytes hi lo) with
    | .ok i => .ok (i, rest)
    | .error e => .error e
  | [_] => .error (.truncated 1)
  | [] => .error (.truncated 0)

/-! ## Encoding -/

/-- The word whose nibbles are `op`, `x`, `y`, `n` (R81). -/
def packXYN (op : BitVec 4) (x y : RegIdx) (n : BitVec 4) : Word :=
  BitVec.ofNat 16 (op.toNat * 4096 + x.val * 256 + y.val * 16 + n.toNat)

/-- The word of an `op`, `x`, `nn` form (R81). -/
def packXNN (op : BitVec 4) (x : RegIdx) (nn : Byte) : Word :=
  BitVec.ofNat 16 (op.toNat * 4096 + x.val * 256 + nn.toNat)

/-- The word of an `op`, `nnn` form (R81). -/
def packNNN (op : BitVec 4) (nnn : BitVec 12) : Word :=
  BitVec.ofNat 16 (op.toNat * 4096 + nnn.toNat)

/-- The word of an instruction by the patterns of R85; an ignored nibble (R87) is written 0.
DESIGN CHOICE for that zero (assumption log 24). -/
def encode : Instr → Word
  | .cls => packXNN 0x0 0 0xE0
  | .ret => packXNN 0x0 0 0xEE
  | .jp nnn => packNNN 0x1 nnn
  | .call nnn => packNNN 0x2 nnn
  | .seByte x nn => packXNN 0x3 x nn
  | .sneByte x nn => packXNN 0x4 x nn
  | .seReg x y => packXYN 0x5 x y 0x0
  | .ldByte x nn => packXNN 0x6 x nn
  | .addByte x nn => packXNN 0x7 x nn
  | .ldReg x y => packXYN 0x8 x y 0x0
  | .orReg x y => packXYN 0x8 x y 0x1
  | .andReg x y => packXYN 0x8 x y 0x2
  | .xorReg x y => packXYN 0x8 x y 0x3
  | .addReg x y => packXYN 0x8 x y 0x4
  | .subReg x y => packXYN 0x8 x y 0x5
  | .shr x y => packXYN 0x8 x y 0x6
  | .subn x y => packXYN 0x8 x y 0x7
  | .shl x y => packXYN 0x8 x y 0xE
  | .sneReg x y => packXYN 0x9 x y 0x0
  | .ldI nnn => packNNN 0xA nnn
  | .jpV0 nnn => packNNN 0xB nnn
  | .rnd x nn => packXNN 0xC x nn
  | .drw x y n => packXYN 0xD x y n
  | .skp x => packXNN 0xE x 0x9E
  | .sknp x => packXNN 0xE x 0xA1
  | .ldVxDT x => packXNN 0xF x 0x07
  | .ldVxK x => packXNN 0xF x 0x0A
  | .ldDTVx x => packXNN 0xF x 0x15
  | .ldSTVx x => packXNN 0xF x 0x18
  | .addI x => packXNN 0xF x 0x1E
  | .ldF x => packXNN 0xF x 0x29
  | .ldB x => packXNN 0xF x 0x33
  | .storeRegs x => packXNN 0xF x 0x55
  | .loadRegs x => packXNN 0xF x 0x65

/-- The bytes of an instruction in memory order (R55, R80). -/
def encodeBytes (i : Instr) : List Byte := bytesOfWord (encode i)

/-! ## The opcode map as data (R85) -/

/-- One row of the opcode map: a word `w` selects it when `w & mask = pattern` (R85). -/
structure OpcodeRow where
  mask : Word
  pattern : Word
  deriving DecidableEq, Repr

/-- The word `w` selects the row (R85). -/
def OpcodeRow.selects (r : OpcodeRow) (w : Word) : Bool := decide (w &&& r.mask = r.pattern)

/-- The row of R85 that each instruction belongs to. -/
def Instr.row : Instr → OpcodeRow
  | .cls => ⟨0xF0FF, 0x00E0⟩
  | .ret => ⟨0xF0FF, 0x00EE⟩
  | .jp _ => ⟨0xF000, 0x1000⟩
  | .call _ => ⟨0xF000, 0x2000⟩
  | .seByte _ _ => ⟨0xF000, 0x3000⟩
  | .sneByte _ _ => ⟨0xF000, 0x4000⟩
  | .seReg _ _ => ⟨0xF000, 0x5000⟩
  | .ldByte _ _ => ⟨0xF000, 0x6000⟩
  | .addByte _ _ => ⟨0xF000, 0x7000⟩
  | .ldReg _ _ => ⟨0xF00F, 0x8000⟩
  | .orReg _ _ => ⟨0xF00F, 0x8001⟩
  | .andReg _ _ => ⟨0xF00F, 0x8002⟩
  | .xorReg _ _ => ⟨0xF00F, 0x8003⟩
  | .addReg _ _ => ⟨0xF00F, 0x8004⟩
  | .subReg _ _ => ⟨0xF00F, 0x8005⟩
  | .shr _ _ => ⟨0xF00F, 0x8006⟩
  | .subn _ _ => ⟨0xF00F, 0x8007⟩
  | .shl _ _ => ⟨0xF00F, 0x800E⟩
  | .sneReg _ _ => ⟨0xF000, 0x9000⟩
  | .ldI _ => ⟨0xF000, 0xA000⟩
  | .jpV0 _ => ⟨0xF000, 0xB000⟩
  | .rnd _ _ => ⟨0xF000, 0xC000⟩
  | .drw _ _ _ => ⟨0xF000, 0xD000⟩
  | .skp _ => ⟨0xF0FF, 0xE09E⟩
  | .sknp _ => ⟨0xF0FF, 0xE0A1⟩
  | .ldVxDT _ => ⟨0xF0FF, 0xF007⟩
  | .ldVxK _ => ⟨0xF0FF, 0xF00A⟩
  | .ldDTVx _ => ⟨0xF0FF, 0xF015⟩
  | .ldSTVx _ => ⟨0xF0FF, 0xF018⟩
  | .addI _ => ⟨0xF0FF, 0xF01E⟩
  | .ldF _ => ⟨0xF0FF, 0xF029⟩
  | .ldB _ => ⟨0xF0FF, 0xF033⟩
  | .storeRegs _ => ⟨0xF0FF, 0xF055⟩
  | .loadRegs _ => ⟨0xF0FF, 0xF065⟩

/-- The rows of R85 in the spec's order, in four parts. -/
def opcodeMap : List OpcodeRow :=
  [⟨0xF0FF, 0x00E0⟩, ⟨0xF0FF, 0x00EE⟩, ⟨0xF000, 0x1000⟩, ⟨0xF000, 0x2000⟩, ⟨0xF000, 0x3000⟩,
    ⟨0xF000, 0x4000⟩, ⟨0xF000, 0x5000⟩, ⟨0xF000, 0x6000⟩, ⟨0xF000, 0x7000⟩]
  ++ [⟨0xF00F, 0x8000⟩, ⟨0xF00F, 0x8001⟩, ⟨0xF00F, 0x8002⟩, ⟨0xF00F, 0x8003⟩, ⟨0xF00F, 0x8004⟩,
    ⟨0xF00F, 0x8005⟩, ⟨0xF00F, 0x8006⟩, ⟨0xF00F, 0x8007⟩, ⟨0xF00F, 0x800E⟩]
  ++ [⟨0xF000, 0x9000⟩, ⟨0xF000, 0xA000⟩, ⟨0xF000, 0xB000⟩, ⟨0xF000, 0xC000⟩, ⟨0xF000, 0xD000⟩,
    ⟨0xF0FF, 0xE09E⟩, ⟨0xF0FF, 0xE0A1⟩]
  ++ [⟨0xF0FF, 0xF007⟩, ⟨0xF0FF, 0xF00A⟩, ⟨0xF0FF, 0xF015⟩, ⟨0xF0FF, 0xF018⟩, ⟨0xF0FF, 0xF01E⟩,
    ⟨0xF0FF, 0xF029⟩, ⟨0xF0FF, 0xF033⟩, ⟨0xF0FF, 0xF055⟩, ⟨0xF0FF, 0xF065⟩]

/-! ## The host's reading of the opcode table -/

/-- The bytes, in memory order, of the word that spec/opcode_table.json numbers `w`, of which the table
gives `nbits` bits and the rest are 0: bit 15 is the first byte's top bit (R55, R81). -/
def tableBytes (nbits w : Nat) : List Byte := bytesOfWord (BitVec.ofNat 16 (w % 2 ^ nbits))

/-- The instruction the decoder reads from the table's word `w`. -/
def decodeTableWord (nbits w : Nat) : Option Instr :=
  match decodeBytes (tableBytes nbits w) with
  | .ok (i, _) => some i
  | .error _ => none

end Sys2Proof
end

