-- ==== Sys2Proof/Machine/Framebuffer.lean ====
section
/-! DEFINITION. The framebuffer `FB` behind the capability interface (R11, R36, R37), as rows from the
top, each row from the left (assumption log 35). -/

namespace Sys2Proof.Machine

/-- `FB`: the rows of pixels; `true` means lit (R36). -/
abbrev Framebuffer := List (List Bool)

/-- Every pixel `false` (R42, R190). -/
def Framebuffer.blank (width height : Nat) : Framebuffer :=
  List.replicate height (List.replicate width false)

/-- `FB[cx][cy]` at a column and row inside the screen. -/
def Framebuffer.at (fb : Framebuffer) (cx cy : Nat) : Bool :=
  (fb.getD cy []).getD cx false

/-- `FB[cx][cy] <- on` at a column and row inside the screen. -/
def Framebuffer.put (fb : Framebuffer) (cx cy : Nat) (on : Bool) : Framebuffer :=
  fb.set cy ((fb.getD cy []).set cx on)

/-- `pixel(px, py)` reads `FB[px mod W][py mod H]` (R37). -/
def Framebuffer.pixel (width height : Nat) (fb : Framebuffer) (px py : Nat) : Bool :=
  fb.at (px % width) (py % height)

/-- `set_pixel(px, py, on)` writes `FB[px mod W][py mod H]` (R37). -/
def Framebuffer.setPixel (width height : Nat) (fb : Framebuffer) (px py : Nat) (on : Bool) :
    Framebuffer :=
  fb.put (px % width) (py % height) on

/-- `H` rows of `W` pixels (R36). -/
abbrev Framebuffer.wf (width height : Nat) (fb : Framebuffer) : Prop :=
  fb.length = height ∧ ∀ row ∈ fb, row.length = width

end Sys2Proof.Machine
end

