-- ==== Sys2Proof/Machine/Memory.lean ====
section
/-! DEFINITION. The byte store (R50): a canonical list of the bytes that differ from the construction
contents, and its reads and writes of one byte and of a run of bytes. The bounds are checked by the
accesses of Machine/Ops.lean (R51 to R54). -/

namespace Sys2Proof.Machine

/-- The bytes of memory that differ from their construction value, by strictly rising address. -/
abbrev Memory := List Host.Cell

/-- What an address that is not listed reads as: its construction value (R42), the font table at
`0x000..0x04F` (R57), and 0 elsewhere.
DESIGN CHOICE for the 0 (the spec's own decision D7; assumption log 8). -/
def Memory.initial (font : List Byte) (a : Nat) : Byte :=
  if a < Config.fontSize then font.getD a 0 else 0

/-- The byte at an address. -/
def Memory.read (font : List Byte) : Memory → Nat → Byte
  | [], a => Memory.initial font a
  | (k, b) :: m, a => if a = k then b else Memory.read font m a

/-- List the byte `b` at `a`, keeping the addresses rising. -/
def Memory.insert (m : Memory) (a : Nat) (b : Byte) : Memory :=
  match m with
  | [] => [(a, b)]
  | (k, c) :: rest =>
    if a < k then (a, b) :: (k, c) :: rest
    else if a = k then (a, b) :: rest
    else (k, c) :: Memory.insert rest a b

/-- Take the address `a` off the list. -/
def Memory.erase (m : Memory) (a : Nat) : Memory :=
  match m with
  | [] => []
  | (k, c) :: rest => if a = k then rest else (k, c) :: Memory.erase rest a

/-- Write one byte. The construction value is never listed, so equal memories are equal lists. -/
def Memory.write (font : List Byte) (m : Memory) (a : Nat) (b : Byte) : Memory :=
  if b = Memory.initial font a then Memory.erase m a else Memory.insert m a b

/-- Write bytes at rising addresses, the first at `a` (R61). -/
def Memory.writeBytes (font : List Byte) (m : Memory) (a : Nat) : List Byte → Memory
  | [] => m
  | b :: bs => Memory.writeBytes font (Memory.write font m a b) (a + 1) bs

/-- The `n` bytes from `a` on, in address order (R54). -/
def Memory.readBytes (font : List Byte) (m : Memory) (a : Nat) : Nat → List Byte
  | 0 => []
  | n + 1 => Memory.read font m a :: Memory.readBytes font m (a + 1) n

/-- The canonical form: addresses strictly rising and inside memory (R35), no construction value listed. -/
abbrev Memory.wf (font : List Byte) (m : Memory) : Prop :=
  m.Pairwise (fun c d => c.1 < d.1) ∧
    ∀ c ∈ m, c.1 < Config.memSize ∧ c.2 ≠ Memory.initial font c.1

end Sys2Proof.Machine
end

