-- ==== Sys2Proof/Machine/State.lean ====
section
/-! DEFINITION. The state of the block (10_state.md), the errors (R220), the reasons a transition can
be turned away, and the state after construction (R42, R260). -/

namespace Sys2Proof.Machine

/-- The error kinds, exactly the five of R220. -/
inductive ErrorKind where
  | outOfRange
  | invalidRegister
  | stackUnderflow
  | stackOverflow
  | unknownOpcode
  deriving DecidableEq, Repr

/-- An error with the information it carries to the host (R220).
DESIGN CHOICE for the information (the spec's own decision D2; assumption log 2). -/
inductive CoreError where
  /-- A fetch, `DXYN`, `FX33`, `load_program` or debug `peek` outside memory: the access's first address. -/
  | outOfRange (addr : Nat)
  /-- A debug read of a register above 15: the index. No instruction raises it (R21). -/
  | invalidRegister (index : Nat)
  /-- `00EE` with an empty stack: its `PC`. -/
  | stackUnderflow (pc : Nat)
  /-- `2NNN` with a full stack: its `PC`. -/
  | stackOverflow (pc : Nat)
  /-- A word of no row of the opcode map: the word (R86). -/
  | unknownOpcode (w : Word)
  deriving DecidableEq, Repr

/-- The run state (R33). DESIGN CHOICE for `faulted` (the spec's own decision D1; assumption log 1). -/
inductive RunState where
  /-- A step executes an instruction. -/
  | running
  /-- Awaiting a key into `V[r]`, entered by `FX0A`, left by `press_key` (R203, R238). -/
  | awaitKey (r : RegIdx)
  /-- Stopped by an error; only a new construction leaves it (R224). -/
  | faulted (kind : ErrorKind)
  deriving DecidableEq, Repr

/-- No step of this hardware stops outside the states the spec describes: every error of R220 is a next
state with `run = faulted kind` (R105, R224), so nothing raises a fault and the type is empty (safe;
assumption log 37). -/
inductive Fault where
  deriving DecidableEq, Repr

/-- Why a transition is turned away with nothing done. -/
inductive Refusal where
  /-- An instruction without a meaning; raised by no arm of `exec` (safe). -/
  | notModelled (mnemonic : String)
  /-- `press_key` or `release_key` with a key above 15, not a legal input (R239); raised by the host
  calls only (safe; assumption log 18). -/
  | illegalKey (key : Nat)
  /-- `new` with a zero width or height, not a legal construction (R262); raised by the host calls only
  (safe; assumption log 18). -/
  | illegalSize (width height : Nat)
  deriving DecidableEq, Repr

/-- Everything the spec gives the block (10_state.md), its parameters (R40), and the model's own place
in the random sequence. -/
structure State where
  /-- The parameters `W`, `H`, `FONT`, fixed at construction (R40; assumption log 3). -/
  cfg : Config
  /-- `V0`..`VF` (R20). -/
  v : Vector Byte 16
  /-- The index register `I` (R27). -/
  i : Word
  /-- The program counter `PC` (R24). -/
  pc : Word
  /-- The delay timer `DT` (R28). -/
  dt : Byte
  /-- The sound timer `ST` (R29). -/
  st : Byte
  /-- The call stack, oldest entry first (R30, R31). -/
  stack : List Word
  /-- The run state (R33). -/
  run : RunState
  /-- The byte store `MEM` (R35, R50). -/
  mem : Memory
  /-- The framebuffer `FB` (R36). -/
  fb : Framebuffer
  /-- The keypad `KEY` (R38). -/
  keys : Vector Bool 16
  /-- THE MODEL'S OWN: how many random bytes have been drawn (R160; assumption log 20). -/
  draws : Nat
  deriving DecidableEq, Repr

/-- `new` on given parameters: every piece of state at its construction value (R42, R260). Only `PC` and
the font are the source's; the zeros are DESIGN CHOICE (the spec's own decisions D6 and D7; assumption
log 7 and 8), and `draws := 0` is DESIGN CHOICE (the model's; assumption log 20). -/
def State.construct (cfg : Config) : State where
  cfg := cfg
  v := Vector.replicate 16 0
  i := 0
  pc := 0x200
  dt := 0
  st := 0
  stack := []
  run := .running
  mem := []
  fb := Framebuffer.blank cfg.width cfg.height
  keys := Vector.replicate 16 false
  draws := 0

/-- The canonical parameters: 64 by 32 pixels and the default font (R8, R58; assumption log 3 and 9). -/
def canonicalConfig : Config := ⟨64, 32, defaultFont⟩

/-- The block right after `new(64, 32)` (R42, R260). -/
def State.reset : State := State.construct canonicalConfig

end Sys2Proof.Machine
end

