-- ==== Sys2Proof/Machine/Ops.lean ====
section
/-! DEFINITION. The named operations over the state: the accessors of every piece, recording a fault,
the checked memory accesses, fetching, the call stack, the device port and the random source. -/

namespace Sys2Proof.Machine

/-- What a transition answers: a next state, a fault (there is none) or a refusal. -/
abbrev Result := Host.Outcome State Fault Refusal

/-! ## Accessors: the one home of every read and write -/

/-- `V[r]` (R14, R20). -/
def State.getV (s : State) (r : RegIdx) : Byte := s.v.get r

/-- `V[r] <- b` (R14, R20). -/
def State.setV (s : State) (r : RegIdx) (b : Byte) : State := { s with v := s.v.set r b }

/-- All sixteen general registers at once. -/
def State.setRegs (s : State) (v : Vector Byte 16) : State := { s with v := v }

/-- `I <- a` (R27). -/
def State.setI (s : State) (a : Word) : State := { s with i := a }

/-- `PC <- a` (R24). -/
def State.setPC (s : State) (a : Word) : State := { s with pc := a }

/-- `DT <- b` (R28). -/
def State.setDT (s : State) (b : Byte) : State := { s with dt := b }

/-- `ST <- b` (R29). -/
def State.setST (s : State) (b : Byte) : State := { s with st := b }

/-- The call stack (R30). -/
def State.setStack (s : State) (st : List Word) : State := { s with stack := st }

/-- The run state (R33). -/
def State.setRun (s : State) (r : RunState) : State := { s with run := r }

/-- The byte store (R35). -/
def State.setMem (s : State) (m : Memory) : State := { s with mem := m }

/-- The framebuffer (R36). -/
def State.setFb (s : State) (fb : Framebuffer) : State := { s with fb := fb }

/-- `KEY[k] <- on` (R38). -/
def State.setKey (s : State) (k : Fin 16) (on : Bool) : State := { s with keys := s.keys.set k on }

/-- The place in the random sequence (R160). -/
def State.setDraws (s : State) (n : Nat) : State := { s with draws := n }

/-- `VF` is `V[15]` (R14, R23). -/
abbrev vf : RegIdx := 15

/-! ## Errors: what a failing step does (R105, R220 to R225) -/

/-- The kind of an error (R220). -/
def CoreError.kind : CoreError → ErrorKind
  | .outOfRange _ => .outOfRange
  | .invalidRegister _ => .invalidRegister
  | .stackUnderflow _ => .stackUnderflow
  | .stackOverflow _ => .stackOverflow
  | .unknownOpcode _ => .unknownOpcode

/-- The numeric code of a kind; 0 is no error (R220).
DESIGN CHOICE (the spec's own decision D2; assumption log 2). -/
def ErrorKind.code : ErrorKind → Nat
  | .outOfRange => 1
  | .invalidRegister => 2
  | .stackUnderflow => 3
  | .stackOverflow => 4
  | .unknownOpcode => 5

/-- TAKING AN ERROR, the one operation of every failing step: of the state before the step only
`state <- Faulted(kind)` changes; no pc, status or stack entry is saved, no handler is entered
(R105, R223 to R225). There is no return from it: no instruction leaves `Faulted`, only `new` does
(R224, R225). DESIGN CHOICE for the sticky state (the spec's own decision D1; assumption log 1). -/
def raise (e : CoreError) (s : State) : Result := .next (s.setRun (.faulted e.kind))

/-- The error of a checked operation, if it failed. -/
def errorOf {α : Type} : Except CoreError α → Option CoreError
  | .ok _ => none
  | .error e => some e

/-- `step()` while `AwaitKey(r)`: `Ok(false)`, nothing changes (R100, R107). -/
def stepAwaiting (_r : RegIdx) (s : State) : Result := .next s

/-- `step()` while `Faulted(k)`: `Err(k)`, nothing changes (R100, R224). -/
def stepFaulted (_k : ErrorKind) (s : State) : Result := .next s

/-! ## Register access by a number (R21) -/

/-- `get_v(i)`: bounds-checked, InvalidRegister above 15 (R21). -/
def State.tryGetV (s : State) (i : Nat) : Except CoreError Byte :=
  if h : i < 16 then .ok (s.getV ⟨i, h⟩) else .error (.invalidRegister i)

/-- `set_v(i, value)`: bounds-checked, InvalidRegister above 15 (R21). -/
def State.trySetV (s : State) (i : Nat) (b : Byte) : Except CoreError State :=
  if h : i < 16 then .ok (s.setV ⟨i, h⟩ b) else .error (.invalidRegister i)

/-! ## Memory accesses (R51 to R54, R61) -/

/-- `in_range(addr)` (R51): addresses are never reduced modulo 4096. -/
def inRange (a : Nat) : Bool := decide (a ≤ 0xFFF)

/-- `MEM[a]` at an address that exists. -/
def State.readByte (s : State) (a : Nat) : Byte := Memory.read s.cfg.font s.mem a

/-- `MEM[a] <- b` at an address that exists. -/
def State.writeByte (s : State) (a : Nat) (b : Byte) : State :=
  s.setMem (Memory.write s.cfg.font s.mem a b)

/-- `peek(addr)` (R52). -/
def State.peek (s : State) (a : Nat) : Except CoreError Byte :=
  if inRange a then .ok (s.readByte a) else .error (.outOfRange a)

/-- `poke(addr, byte)` (R53). -/
def State.poke (s : State) (a : Nat) (b : Byte) : Except CoreError State :=
  if inRange a then .ok (s.writeByte a b) else .error (.outOfRange a)

/-- The bound of `block` and `block_mut`: `addr + len <= 4096` in integers, for every length (R54).
DESIGN CHOICE for a zero length (the spec's own decision D14; assumption log 15). -/
def blockInRange (a len : Nat) : Bool := decide (a + len ≤ Config.memSize)

/-- `block(addr, len)`: the bytes of a contiguous run, or OutOfRange (R54). -/
def State.block (s : State) (a len : Nat) : Except CoreError (List Byte) :=
  if blockInRange a len then .ok (Memory.readBytes s.cfg.font s.mem a len)
  else .error (.outOfRange a)

/-- `load(addr, bytes)`, which is also the write of a whole `block_mut`: all the bytes or none (R54, R61). -/
def State.load (s : State) (a : Nat) (bytes : List Byte) : Except CoreError State :=
  if blockInRange a bytes.length then .ok (s.setMem (Memory.writeBytes s.cfg.font s.mem a bytes))
  else .error (.outOfRange a)

/-! ## Fetch (R55, R101) -/

/-- The opcode at `PC`, big-endian, or OutOfRange with `PC` (R55). -/
def fetch (s : State) : Except CoreError Word :=
  if s.pc.toNat + 2 > Config.memSize then .error (.outOfRange s.pc.toNat)
  else .ok (wordOfBytes (s.readByte s.pc.toNat) (s.readByte (s.pc.toNat + 1)))

/-- Fetch, then decode: the fetch is checked first (R226), an unknown word is the information of its
error (R86, R104). -/
def fetchInstr (s : State) : Except CoreError Instr :=
  match fetch s with
  | .error e => .error e
  | .ok w =>
    match decode w with
    | .ok i => .ok i
    | .error _ => .error (.unknownOpcode w)

/-! ## Next PC (R102, R103) -/

/-- The sequential class: `PC <- PC + 2` (R102; the spec's own decision D5, assumption log 6). -/
def State.advance (s : State) : State := s.setPC (s.pc + 2#16)

/-- The skip class: `PC + 4` if the condition holds, else `PC + 2`; the skipped word is not looked at
(R102, R103). -/
def State.skipIf (s : State) (c : Bool) : State := s.setPC (if c then s.pc + 4#16 else s.pc + 2#16)

/-! ## The call stack (R30, R31) -/

/-- `push(a)`: the stack with `a` last, or StackOverflow when it holds `STACK_DEPTH` entries (R31).
DESIGN CHOICE for the bound (the spec's own decision D3; assumption log 4). -/
def State.push (s : State) (a : Word) : Except CoreError (List Word) :=
  if Config.stackDepth ≤ s.stack.length then .error (.stackOverflow s.pc.toNat)
  else .ok (s.stack ++ [a])

/-- `pop()`: the last entry and the stack without it, or StackUnderflow (R31). -/
def State.pop (s : State) : Except CoreError (Word × List Word) :=
  match s.stack.getLast? with
  | none => .error (.stackUnderflow s.pc.toNat)
  | some a => .ok (a, s.stack.dropLast)

/-! ## The device port (R11, R242) -/

/-- `clear_screen()` (R190). -/
def State.clearScreen (s : State) : State := s.setFb (Framebuffer.blank s.cfg.width s.cfg.height)

/-- `pixel(px, py)`, wrapped (R37). -/
def State.pixel (s : State) (px py : Nat) : Bool :=
  Framebuffer.pixel s.cfg.width s.cfg.height s.fb px py

/-- `set_pixel(px, py, on)`, wrapped (R37). -/
def State.setPixel (s : State) (px py : Nat) (on : Bool) : State :=
  s.setFb (Framebuffer.setPixel s.cfg.width s.cfg.height s.fb px py on)

/-- The key that an index from a register names: reduced modulo 16 (R39).
DESIGN CHOICE for the modulus (the spec's own decision D16; assumption log 17). -/
def keyOf (k : Nat) : Fin 16 := ⟨k % 16, Nat.mod_lt k (by decide)⟩

/-- `is_key_pressed(k)` (R39). -/
def State.isKeyPressed (s : State) (k : Nat) : Bool := s.keys.get (keyOf k)

/-! ## The random source (R160, R243) -/

/-- `draw_rnd()`: the byte of the next draw, a free value. -/
def State.rndByte (s : State) : Byte := Config.randomByte s.draws

/-- The state once that byte is drawn: the next draw is another one. -/
def State.afterDraw (s : State) : State := s.setDraws (s.draws + 1)

/-! ## Placing an instruction (for the host; assumption log 34) -/

/-- The state with `bytes` stored at `PC`, from where the next step fetches, and running; unchanged where
they would leave memory, since nothing is fetched from there (R55). -/
def State.placeAtPC (s : State) (bytes : List Byte) : State :=
  match s.load s.pc.toNat bytes with
  | .ok t => t.setRun .running
  | .error _ => s

end Sys2Proof.Machine
end

