-- ==== Sys2Proof/Machine/Operands.lean ====
section
/-! DEFINITION. The operand forms (R82, R83, R173): immediates, the font address, the decimal digits,
the reach of a block transfer and the bits of a sprite row. -/

namespace Sys2Proof.Machine

/-- `nnn` zero-extended to 16 bits (R82). -/
def zext16 (nnn : BitVec 12) : Word := nnn.setWidth 16

/-- A byte zero-extended to 16 bits, for the sums of `FX1E` and `BNNN` (R128, R172). -/
def zextByte (b : Byte) : Word := b.setWidth 16

/-- The font address `5 * V[x]`, at most `0x4FB` (R174).
DESIGN CHOICE: not reduced to a nibble (the spec's own decision D34; assumption log 31). -/
def glyphAddress (b : Byte) : Word := BitVec.ofNat 16 (5 * b.toNat)

/-- Hundreds, tens and ones of a byte, in that order (R175). -/
def bcdDigits (b : Byte) : List Byte :=
  [BitVec.ofNat 8 (b.toNat / 100), BitVec.ofNat 8 (b.toNat / 10 % 10), BitVec.ofNat 8 (b.toNat % 10)]

/-- How many of `V[0]..V[x]` a block transfer at `base` moves before its early stop: all `x + 1`, or
the `0x1000 - base` whose address exists, none for `base >= 0x1000` (R176 to R178). -/
def transferCount (base : Nat) (x : RegIdx) : Nat := min (x.val + 1) (Config.memSize - base)

/-- `V[0]`, `V[1]`, ..., the first `n` registers (R176). -/
def firstRegs (v : Vector Byte 16) (n : Nat) : List Byte := v.toList.take n

/-- The registers with `bytes` written to `V[k]`, `V[k+1]`, ... (R177). -/
def putRegs (v : Vector Byte 16) (k : Nat) : List Byte → Vector Byte 16
  | [] => v
  | b :: bs => putRegs (v.setIfInBounds k b) (k + 1) bs

/-- Column `col` of a sprite row is bit `7 - col`: the most significant bit is leftmost (R192).
PRESUMED: from general knowledge (the spec's own decision D9; assumption log 10). -/
def spriteBit (row : Byte) (col : Nat) : Bool := row.getLsbD (7 - col)

end Sys2Proof.Machine
end

