-- ==== Sys2Proof/Machine/Alu.lean ====
section
/-! DEFINITION. Register loads and arithmetic (42_alu.md). Operands are read from the state before the
instruction; writes are applied in the listed order, the later one kept (R106; DESIGN CHOICE, the spec's
own decision D11; assumption log 12). All are sequential and raise nothing (R140). -/

namespace Sys2Proof.Machine

/-- `LD Vx, byte` (R141). -/
def execLdByte (x : RegIdx) (nn : Byte) (s : State) : Result := .next (s.setV x nn).advance

/-- `ADD Vx, byte` (R142): wrapping, `VF` not written as a carry. -/
def execAddByte (x : RegIdx) (nn : Byte) (s : State) : Result :=
  .next (s.setV x (s.getV x + nn)).advance

/-- `LD Vx, Vy` (R143). -/
def execLdReg (x y : RegIdx) (s : State) : Result := .next (s.setV x (s.getV y)).advance

/-- `OR Vx, Vy` (R144). -/
def execOr (x y : RegIdx) (s : State) : Result :=
  .next (s.setV x (s.getV x ||| s.getV y)).advance

/-- `AND Vx, Vy` (R145). -/
def execAnd (x y : RegIdx) (s : State) : Result :=
  .next (s.setV x (s.getV x &&& s.getV y)).advance

/-- `XOR Vx, Vy` (R146). -/
def execXor (x y : RegIdx) (s : State) : Result :=
  .next (s.setV x (s.getV x ^^^ s.getV y)).advance

/-- Result first, then `VF` (R106): the order of `8XY4`, `8XY5` and `8XY7`. -/
def State.writeThenFlag (s : State) (x : RegIdx) (result flag : Byte) : State :=
  (s.setV x result).setV vf flag

/-- `VF` first, then the result (R106): the order of `8XY6` and `8XYE`. -/
def State.flagThenWrite (s : State) (x : RegIdx) (result flag : Byte) : State :=
  (s.setV vf flag).setV x result

/-- `ADD Vx, Vy` (R147). -/
def execAddReg (x y : RegIdx) (s : State) : Result :=
  .next (s.writeThenFlag x (s.getV x + s.getV y) (carryFlag (s.getV x) (s.getV y))).advance

/-- `SUB Vx, Vy` (R148). -/
def execSubReg (x y : RegIdx) (s : State) : Result :=
  .next (s.writeThenFlag x (s.getV x - s.getV y) (noBorrowFlag (s.getV x) (s.getV y))).advance

/-- `SUBN Vx, Vy` (R150): `Vy - Vx`, as the opcode table has it (C2; assumption log 33). -/
def execSubn (x y : RegIdx) (s : State) : Result :=
  .next (s.writeThenFlag x (s.getV y - s.getV x) (noBorrowFlag (s.getV y) (s.getV x))).advance

/-- `SHR Vx, Vy` (R149): the operand is `Vy`. -/
def execShr (x y : RegIdx) (s : State) : Result :=
  .next (s.flagThenWrite x (s.getV y >>> 1) (lowBitFlag (s.getV y))).advance

/-- `SHL Vx, Vy` (R151): the operand is `Vy`. -/
def execShl (x y : RegIdx) (s : State) : Result :=
  .next (s.flagThenWrite x (s.getV y <<< 1) (highBitFlag (s.getV y))).advance

/-- `RND Vx, byte` (R160): the next random byte, a FREE VALUE (D19; assumption log 20), masked by `nn`. -/
def execRnd (x : RegIdx) (nn : Byte) (s : State) : Result :=
  .next (s.afterDraw.setV x (s.rndByte &&& nn)).advance

end Sys2Proof.Machine
end

