-- ==== Sys2Proof/Machine/ControlFlow.lean ====
section
/-! DEFINITION. Control transfer (41_control_flow.md): these write only `PC` and, for `CALL` and `RET`,
the stack (R120). Targets are used as they are, with no bias, mask or alignment check (R120). -/

namespace Sys2Proof.Machine

/-- `RET` (R121): StackUnderflow when the stack is empty, else the popped entry is the next `PC`. -/
def execRet (s : State) : Result :=
  match s.pop with
  | .error e => raise e s
  | .ok (a, rest) => .next ((s.setStack rest).setPC a)

/-- `JP addr` (R122). -/
def execJp (nnn : BitVec 12) (s : State) : Result := .next (s.setPC (zext16 nnn))

/-- `CALL addr` (R123): push `PC + 2` (DESIGN CHOICE, the spec's own decision D4; assumption log 5) and
jump, or StackOverflow. -/
def execCall (nnn : BitVec 12) (s : State) : Result :=
  match s.push (s.pc + 2#16) with
  | .error e => raise e s
  | .ok stack => .next ((s.setStack stack).setPC (zext16 nnn))

/-- `SE Vx, byte` (R124). -/
def execSeByte (x : RegIdx) (nn : Byte) (s : State) : Result :=
  .next (s.skipIf (decide (s.getV x = nn)))

/-- `SNE Vx, byte` (R125). -/
def execSneByte (x : RegIdx) (nn : Byte) (s : State) : Result :=
  .next (s.skipIf (decide (s.getV x ≠ nn)))

/-- `SE Vx, Vy` (R126). -/
def execSeReg (x y : RegIdx) (s : State) : Result :=
  .next (s.skipIf (decide (s.getV x = s.getV y)))

/-- `SNE Vx, Vy` (R127). -/
def execSneReg (x y : RegIdx) (s : State) : Result :=
  .next (s.skipIf (decide (s.getV x ≠ s.getV y)))

/-- `JP V0, addr` (R128): `nnn + V[0]`, at most `0x10FE`, not reduced to 12 bits.
DESIGN CHOICE (the spec's own decision D27; assumption log 25). -/
def execJpV0 (nnn : BitVec 12) (s : State) : Result :=
  .next (s.setPC (zext16 nnn + zextByte (s.getV 0)))

end Sys2Proof.Machine
end

