-- ==== Sys2Proof/Machine/Display.lean ====
section
/-! DEFINITION. Framebuffer instructions (44_display.md). Coordinates are exact integer sums, wrapped and
never clipped (R194; DESIGN CHOICE for the sum's width, the spec's own decision D10; assumption log 11). -/

namespace Sys2Proof.Machine

/-- One XOR of a draw: toggle the pixel, and remember that it was lit (R191, R193). -/
def xorPixel (width height px py : Nat) (d : Framebuffer × Bool) : Framebuffer × Bool :=
  let lit := Framebuffer.pixel width height d.1 px py
  (Framebuffer.setPixel width height d.1 px py (!lit), d.2 || lit)

/-- The columns `cols` of one sprite row, left edge at `px`, at screen row `py` (R191, R192). -/
def drawCols (width height px py : Nat) (row : Byte) : List Nat → Framebuffer × Bool → Framebuffer × Bool
  | [], d => d
  | col :: cols, d =>
    drawCols width height px py row cols
      (if spriteBit row col then xorPixel width height (px + col) py d else d)

/-- The rows of a sprite, the first at screen row `py` (R191). -/
def drawRows (width height px : Nat) : Nat → List Byte → Framebuffer × Bool → Framebuffer × Bool
  | _, [], d => d
  | py, row :: rows, d =>
    drawRows width height px (py + 1) rows
      (drawCols width height px py row [0, 1, 2, 3, 4, 5, 6, 7] d)

/-- `CLS` (R190). -/
def execCls (s : State) : Result := .next s.clearScreen.advance

/-- `DRW Vx, Vy, nibble` (R191): OutOfRange with nothing drawn when the sprite leaves memory; else the
sprite is XORed row by row and `VF` is the collision (R193). `Vx` and `Vy` are read before `VF` is
written (R106; the spec's own decision D11, assumption log 12). -/
def execDrw (x y : RegIdx) (n : BitVec 4) (s : State) : Result :=
  match s.block s.i.toNat n.toNat with
  | .error e => raise e s
  | .ok sprite =>
    let d := drawRows s.cfg.width s.cfg.height (s.getV x).toNat (s.getV y).toNat sprite (s.fb, false)
    .next ((s.setFb d.1).setV vf (flagByte d.2)).advance

end Sys2Proof.Machine
end

