-- ==== Sys2Proof/Machine/IndexMemory.lean ====
section
/-! DEFINITION. The index register and memory transfer (43_index_memory.md). Addresses `I + k` are exact
integers, never reduced (R170; DESIGN CHOICE, the spec's own decision D35; assumption log 32). All are
sequential. -/

namespace Sys2Proof.Machine

/-- `LD I, addr` (R171). -/
def execLdI (nnn : BitVec 12) (s : State) : Result := .next (s.setI (zext16 nnn)).advance

/-- `ADD I, Vx` (R172): modulo 2^16, no flag. DESIGN CHOICE for the wrap (the spec's own decision D13;
assumption log 14). -/
def execAddI (x : RegIdx) (s : State) : Result :=
  .next (s.setI (s.i + zextByte (s.getV x))).advance

/-- `LD F, Vx` (R174). -/
def execLdF (x : RegIdx) (s : State) : Result := .next (s.setI (glyphAddress (s.getV x))).advance

/-- `LD B, Vx` (R175): three bytes at `I`, or OutOfRange with none written. -/
def execLdB (x : RegIdx) (s : State) : Result :=
  match s.load s.i.toNat (bcdDigits (s.getV x)) with
  | .error e => raise e s
  | .ok t => .next t.advance

/-- `LD [I], Vx` (R176, R178): stores the registers whose address exists, `I` advances by their count. -/
def execStoreRegs (x : RegIdx) (s : State) : Result :=
  let count := transferCount s.i.toNat x
  let mem := Memory.writeBytes s.cfg.font s.mem s.i.toNat (firstRegs s.v count)
  .next ((s.setMem mem).setI (s.i + BitVec.ofNat 16 count)).advance

/-- `LD Vx, [I]` (R177, R178): loads the registers whose address exists, `I` advances by their count. -/
def execLoadRegs (x : RegIdx) (s : State) : Result :=
  let count := transferCount s.i.toNat x
  let v := putRegs s.v 0 (Memory.readBytes s.cfg.font s.mem s.i.toNat count)
  .next ((s.setRegs v).setI (s.i + BitVec.ofNat 16 count)).advance

end Sys2Proof.Machine
end

