-- ==== Sys2Proof/Machine/KeypadTimers.lean ====
section
/-! DEFINITION. Keypad and timer instructions (45_keypad_timers.md). -/

namespace Sys2Proof.Machine

/-- `SKP Vx` (R200): skip if key `V[x] mod 16` is pressed. -/
def execSkp (x : RegIdx) (s : State) : Result :=
  .next (s.skipIf (s.isKeyPressed (s.getV x).toNat))

/-- `SKNP Vx` (R201): skip if key `V[x] mod 16` is not pressed. -/
def execSknp (x : RegIdx) (s : State) : Result :=
  .next (s.skipIf (!s.isKeyPressed (s.getV x).toNat))

/-- `LD Vx, DT` (R202). -/
def execLdVxDT (x : RegIdx) (s : State) : Result := .next (s.setV x s.dt).advance

/-- `LD Vx, K` (R203): enter `AwaitKey(x)`; `V[x]` is written by the `press_key` that resolves the wait
(R238). `PC` advances at once (R108; DESIGN CHOICE, the spec's own decision D28; assumption log 26). -/
def execLdVxK (x : RegIdx) (s : State) : Result := .next (s.setRun (.awaitKey x)).advance

/-- `LD DT, Vx` (R204). -/
def execLdDTVx (x : RegIdx) (s : State) : Result := .next (s.setDT (s.getV x)).advance

/-- `LD ST, Vx` (R205). -/
def execLdSTVx (x : RegIdx) (s : State) : Result := .next (s.setST (s.getV x)).advance

end Sys2Proof.Machine
end

