-- ==== Sys2Proof/Machine/Step.lean ====
section
/-! DEFINITION. The step (R100): the one transaction that executes instructions. -/

namespace Sys2Proof.Machine

/-- `step()` (R100): nothing while awaiting a key or faulted; else fetch, decode and execute one
instruction, a failure changing only the run state (R105). -/
def step (s : State) : Host.Outcome State Fault Refusal :=
  match s.run with
  | .running =>
    match fetchInstr s with
    | .ok i => exec i s
    | .error e => raise e s
  | .awaitKey r => stepAwaiting r s
  | .faulted k => stepFaulted k s

/-- `s` with the instruction that the opcode table numbers `w` stored where the next step fetches. -/
def State.withFetchWord (s : State) (nbits w : Nat) : State := s.placeAtPC (tableBytes nbits w)

end Sys2Proof.Machine
end

