-- ==== Sys2Proof/Machine/Calls.lean ====
section
/-! DEFINITION. The host's side of the block: what `step()` returns (R107), the host transactions
(R10, R236 to R241, R250, R260 to R263), sequences of them, and `run(stop_at_zero)` (R110). -/

namespace Sys2Proof.Machine

/-! ## What step() returns (R107) -/

/-- The value `step()` returns to the host. It is an output and no state (R225; assumption log 2). -/
inductive StepReturn where
  /-- `Ok(true)`: an instruction ran; `Ok(false)`: awaiting a key. -/
  | ok (ran : Bool)
  /-- `Err(k, info)`: this step failed. -/
  | err (e : CoreError)
  /-- `Err(k)`: an earlier step failed. -/
  | errAgain (k : ErrorKind)
  deriving DecidableEq, Repr

/-- The error an instruction raises, if any: at most one each (R226), by the same checked operation its
meaning calls. -/
def raises (i : Instr) (s : State) : Option CoreError :=
  match i with
  | .ret => errorOf s.pop
  | .call _ => errorOf (s.push (s.pc + 2#16))
  | .drw _ _ n => errorOf (s.block s.i.toNat n.toNat)
  | .ldB x => errorOf (s.load s.i.toNat (bcdDigits (s.getV x)))
  | .cls | .jp _ | .seByte _ _ | .sneByte _ _ | .seReg _ _ | .ldByte _ _ | .addByte _ _ => none
  | .ldReg _ _ | .orReg _ _ | .andReg _ _ | .xorReg _ _ | .addReg _ _ | .subReg _ _ => none
  | .shr _ _ | .subn _ _ | .shl _ _ | .sneReg _ _ | .ldI _ | .jpV0 _ | .rnd _ _ => none
  | .skp _ | .sknp _ | .ldVxDT _ | .ldVxK _ | .ldDTVx _ | .ldSTVx _ | .addI _ | .ldF _ => none
  | .storeRegs _ | .loadRegs _ => none

/-- What `step()` returns, beside the state that `step` answers (R100, R107). -/
def stepReturn (s : State) : StepReturn :=
  match s.run with
  | .running =>
    match fetchInstr s with
    | .error e => .err e
    | .ok i =>
      match raises i s with
      | some e => .err e
      | none => .ok true
  | .awaitKey _ => .ok false
  | .faulted k => .errAgain k

/-! ## Host events -/

/-- `new(width, height)` (R260 to R262). The font is the block's parameter and the random source goes on
where it is (assumption log 3, 20). -/
def construct (width height : Nat) (s : State) : Result :=
  if (HostCall.construct width height).wf then
    .next ((State.construct { s.cfg with width := width, height := height }).setDraws s.draws)
  else .refused (.illegalSize width height)

/-- `load_program(bytes)` is `load(0x200, bytes)`; it writes memory only, in any run state (R263). -/
def loadProgram (bytes : List Byte) (s : State) : Except CoreError State :=
  s.load Config.progBase bytes

/-- `tick()` (R236): `DT` and `ST` down by 1 each, saturating at 0, in every run state.
DESIGN CHOICE for the run states (the spec's own decision D20; assumption log 21). -/
def tick (s : State) : State :=
  (s.setDT (if s.dt = 0 then 0 else s.dt - 1)).setST (if s.st = 0 then 0 else s.st - 1)

/-- A key event's effect on a pending wait: any press resolves it with the key's own code (R238).
DESIGN CHOICE (the spec's own decision D18; assumption log 19). -/
def resolveWait (key : Fin 16) (s : State) : State :=
  match s.run with
  | .awaitKey r => (s.setV r (BitVec.ofNat 8 key.val)).setRun .running
  | .running => s
  | .faulted _ => s

/-- `press_key(key)` (R238): the flag is always set (C3); a key above 15 is refused (R239). -/
def pressKey (key : Nat) (s : State) : Result :=
  if (HostCall.pressKey key).wf then .next (resolveWait (keyOf key) (s.setKey (keyOf key) true))
  else .refused (.illegalKey key)

/-- `release_key(key)` (R240); a key above 15 is refused (R239). -/
def releaseKey (key : Nat) (s : State) : Result :=
  if (HostCall.releaseKey key).wf then .next (s.setKey (keyOf key) false)
  else .refused (.illegalKey key)

/-! ## Debug reads (R250) -/

/-- What a host call gives back. -/
inductive Answer where
  /-- The call has no value: `new`, `tick`, key events, a `load_program` that succeeded. -/
  | done
  /-- The call failed and recorded no fault (R221). -/
  | failed (e : CoreError)
  /-- The call was turned away with nothing done (R239, R262; DESIGN CHOICE, assumption log 18). -/
  | refused (r : Refusal)
  /-- The value of `step()`. -/
  | stepped (r : StepReturn)
  | byte (b : Byte)
  | word (w : Word)
  | words (ws : List Word)
  | runState (r : RunState)
  | bit (b : Bool)
  deriving DecidableEq, Repr

/-- A byte read as an answer, or its error. -/
def answerOf : Except CoreError Byte → Answer
  | .ok b => .byte b
  | .error e => .failed e

/-- The value of a debug read; it changes no state (R250).
DESIGN CHOICE for what is exposed (the spec's own decision D32; assumption log 30). -/
def debugRead (s : State) : DebugRead → Answer
  | .register i => answerOf (s.tryGetV i)
  | .index => .word s.i
  | .programCounter => .word s.pc
  | .delayTimer => .byte s.dt
  | .soundTimer => .byte s.st
  | .stack => .words s.stack
  | .memory a => answerOf (s.peek a)
  | .runState => .runState s.run
  | .pixel px py => .bit (s.pixel px py)

/-- The answer of a call without a value: done, or its refusal where the input is illegal (R239, R262;
DESIGN CHOICE, assumption log 18). -/
def answerUnlessRefused (c : HostCall) (r : Refusal) : Answer := if c.wf then .done else .refused r

/-! ## One transaction, and a sequence of them (R9, R10, R228) -/

/-- A host call as one indivisible transition. A call that returns an error changes nothing (R221); an
illegal input is refused (R239, R262). -/
def hostCall (c : HostCall) (s : State) : Result :=
  match c with
  | .construct width height => construct width height s
  | .loadProgram bytes =>
    match loadProgram bytes s with
    | .ok t => .next t
    | .error _ => .next s
  | .step => step s
  | .tick => .next (tick s)
  | .pressKey key => pressKey key s
  | .releaseKey key => releaseKey key s
  | .debug _ => .next s

/-- What the call gives back to the host, read off the state before it. R239 and R262 say only that a model
refuses an illegal input; that such a call gives back its refusal is a DESIGN CHOICE, the model's own
(assumption log 18). -/
def hostAnswer (c : HostCall) (s : State) : Answer :=
  match c with
  | .construct width height => answerUnlessRefused c (.illegalSize width height)
  | .loadProgram bytes =>
    match loadProgram bytes s with
    | .ok _ => .done
    | .error e => .failed e
  | .step => .stepped (stepReturn s)
  | .tick => .done
  | .pressKey key => answerUnlessRefused c (.illegalKey key)
  | .releaseKey key => answerUnlessRefused c (.illegalKey key)
  | .debug what => debugRead s what

/-- Host calls in the order the host makes them; their interleaving is free, so a claim ranges over every
list (R228, R282; the spec's own decision D21, assumption log 22). -/
def hostCalls : List HostCall → State → Result
  | [], s => .next s
  | c :: cs, s =>
    match hostCall c s with
    | .next t => hostCalls cs t
    | .fault r => .fault r
    | .refused r => .refused r

/-! ## run(stop_at_zero) (R110, R111) -/

/-- How `run` stands after at most some number of steps. -/
inductive RunReturn where
  /-- `Ok`: a zero word is at `PC` and `stop_at_zero` is set. -/
  | ok (s : State)
  /-- `Err(k)`. -/
  | err (k : ErrorKind) (s : State)
  /-- It has not returned within the steps given. -/
  | notYet (s : State)
  deriving DecidableEq, Repr

/-- The stop test, made before each step: running, in range, and the word at `PC` is zero (R110). -/
def atZeroWord (s : State) : Bool :=
  decide (s.run = .running) && decide (s.pc.toNat + 2 ≤ Config.memSize) &&
    decide (s.readByte s.pc.toNat = 0) && decide (s.readByte (s.pc.toNat + 1) = 0)

/-- The error kind of a step's return value, if it is an error. -/
def StepReturn.errKind : StepReturn → Option ErrorKind
  | .ok _ => none
  | .err e => some e.kind
  | .errAgain k => some k

/-- `run(stop_at_zero)` cut off after `fuel` steps: `run` itself returns exactly when this does for some
`fuel` (R110), and never returns while awaiting a key (R111). The spec's own decision D22 (assumption
log 23). -/
def runLoop (stopAtZero : Bool) : Nat → State → RunReturn
  | 0, s => if stopAtZero && atZeroWord s then .ok s else .notYet s
  | fuel + 1, s =>
    if stopAtZero && atZeroWord s then .ok s
    else
      match step s with
      | .next t =>
        match (stepReturn s).errKind with
        | some k => .err k t
        | none => runLoop stopAtZero fuel t
      | .fault _ => .notYet s
      | .refused _ => .notYet s

end Sys2Proof.Machine
end

