-- ==== Sys2Proof/Safety.lean ====
section
/-! DEFINITION. The terms claims use: the invariant of the block, a safe step, frames, and what a draw
covers. -/

namespace Sys2Proof.Machine

/-- What holds after every construction and every transition: legal parameters, memory in canonical form,
`H` rows of `W` pixels, at most `STACK_DEPTH` return addresses, each at most `0x1000`, a `PC` of at most
`0x10FE` (R26), and no InvalidRegister, which no instruction raises (R21). -/
structure State.Inv (s : State) : Prop where
  cfg : s.cfg.wf = true
  mem : Memory.wf s.cfg.font s.mem
  fb : Framebuffer.wf s.cfg.width s.cfg.height s.fb
  depth : s.stack.length ≤ Config.stackDepth
  returns : ∀ a ∈ s.stack, a.toNat ≤ 0x1000
  pc : s.pc.toNat ≤ 0x10FE
  kind : s.run ≠ .faulted .invalidRegister

/-- A safe step: the next step raises no error (R281). -/
def StepSafe (s : State) : Prop := ∀ e, stepReturn s ≠ .err e

/-- A safe run: whatever calls the host makes from `s`, the block never records a fault. -/
def RunSafe (s : State) : Prop :=
  ∀ cs t, hostCalls cs s = .next t → ∀ k, t.run ≠ .faulted k

/-! ## Frames -/

/-- From `s` to `t` the registers outside `written` and every byte of memory keep their values, and of the
whole state only `V` and `PC` may differ. -/
def RegFrame (written : RegIdx → Prop) (s t : State) : Prop :=
  t = { s with v := t.v, pc := t.pc } ∧
    (∀ r, ¬ written r → t.getV r = s.getV r) ∧ ∀ a, t.readByte a = s.readByte a

/-- Only `PC` may differ; every register and every byte of memory keeps its value. -/
def PCFrame (s t : State) : Prop :=
  t = { s with pc := t.pc } ∧ (∀ r, t.getV r = s.getV r) ∧ ∀ a, t.readByte a = s.readByte a

/-- Only `I` and `PC` may differ; every register and every byte of memory keeps its value. -/
def IndexFrame (s t : State) : Prop :=
  t = { s with i := t.i, pc := t.pc } ∧ (∀ r, t.getV r = s.getV r) ∧
    ∀ a, t.readByte a = s.readByte a

/-- A failing step: of the whole state only the run state differs, and it is `Faulted(kind)` (R105). -/
def OnlyFaults (kind : ErrorKind) (s t : State) : Prop :=
  t = { s with run := t.run } ∧ t.run = .faulted kind ∧ t.pc = s.pc ∧
    (∀ r, t.getV r = s.getV r) ∧ ∀ a, t.readByte a = s.readByte a

/-! ## Words and draws -/

/-- The words of no row of the opcode map, as R86 lists them. -/
def UnknownWord (w : Word) : Prop :=
  (opField w = 0x0 ∧ nnField w ≠ 0xE0 ∧ nnField w ≠ 0xEE) ∨
  (opField w = 0x8 ∧ (0x8 ≤ (nField w).toNat ∧ (nField w).toNat ≤ 0xD ∨ nField w = 0xF)) ∨
  (opField w = 0xE ∧ nnField w ≠ 0x9E ∧ nnField w ≠ 0xA1) ∨
  (opField w = 0xF ∧ nnField w ∉ ([0x07, 0x0A, 0x15, 0x18, 0x1E, 0x29, 0x33, 0x55, 0x65] : List Byte))

/-- The operands of an instruction are the fields of its word, as numbers (R81, R85). -/
def OperandsFrom (w : Word) (i : Instr) : Prop :=
  let x := w.toNat / 256 % 16
  let y := w.toNat / 16 % 16
  match i with
  | .jp a | .call a | .ldI a | .jpV0 a => a.toNat = w.toNat % 4096
  | .seByte r b | .sneByte r b | .ldByte r b | .addByte r b | .rnd r b =>
    r.val = x ∧ b.toNat = w.toNat % 256
  | .seReg r q | .sneReg r q | .ldReg r q | .orReg r q | .andReg r q | .xorReg r q | .addReg r q
  | .subReg r q | .shr r q | .subn r q | .shl r q => r.val = x ∧ q.val = y
  | .drw r q k => r.val = x ∧ q.val = y ∧ k.toNat = w.toNat % 16
  | .skp r | .sknp r | .ldVxDT r | .ldVxK r | .ldDTVx r | .ldSTVx r | .addI r | .ldF r | .ldB r
  | .storeRegs r | .loadRegs r => r.val = x
  | .cls | .ret => True

/-- The general registers an instruction may write (R22). -/
def WritesReg (i : Instr) (r : RegIdx) : Prop :=
  match i with
  | .ldByte x _ | .addByte x _ | .ldReg x _ | .orReg x _ | .andReg x _ | .xorReg x _ | .rnd x _
  | .ldVxDT x => r = x
  | .addReg x _ | .subReg x _ | .shr x _ | .subn x _ | .shl x _ => r = x ∨ r = vf
  | .drw _ _ _ => r = vf
  | .loadRegs x => r ≤ x
  | .cls | .ret | .jp _ | .call _ | .seByte _ _ | .sneByte _ _ | .seReg _ _ | .sneReg _ _ | .ldI _
  | .jpV0 _ | .skp _ | .sknp _ | .ldVxK _ | .ldDTVx _ | .ldSTVx _ | .addI _ | .ldF _ | .ldB _
  | .storeRegs _ => False

/-- How many set bits of the `n`-row sprite at `I`, drawn at `(Vx, Vy)`, fall on the pixel at column `px`
and row `py` after the wrap (R191, R192, R194). -/
def spriteHits (s : State) (x y : RegIdx) (n px py : Nat) : Nat :=
  ((List.range n).map fun row =>
    (List.range 8).countP fun col =>
      (s.readByte (s.i.toNat + row)).getLsbD (7 - col) &&
        decide (((s.getV x).toNat + col) % s.cfg.width = px) &&
        decide (((s.getV y).toNat + row) % s.cfg.height = py)).sum

/-- The next `PC` of each class, as an exact integer (R102). -/
def nextPCValue (i : Instr) (s : State) : Nat :=
  let pc := s.pc.toNat
  match i with
  | .jp nnn => nnn.toNat
  | .call nnn => nnn.toNat
  | .ret => (s.stack.getLastD 0).toNat
  | .jpV0 nnn => nnn.toNat + (s.getV 0).toNat
  | .seByte x nn => if s.getV x = nn then pc + 4 else pc + 2
  | .sneByte x nn => if s.getV x = nn then pc + 2 else pc + 4
  | .seReg x y => if s.getV x = s.getV y then pc + 4 else pc + 2
  | .sneReg x y => if s.getV x = s.getV y then pc + 2 else pc + 4
  | .skp x => if s.keys.get (keyOf (s.getV x).toNat) = true then pc + 4 else pc + 2
  | .sknp x => if s.keys.get (keyOf (s.getV x).toNat) = true then pc + 2 else pc + 4
  | .cls | .ldByte _ _ | .addByte _ _ | .ldReg _ _ | .orReg _ _ | .andReg _ _ => pc + 2
  | .xorReg _ _ | .addReg _ _ | .subReg _ _ | .shr _ _ | .subn _ _ | .shl _ _ => pc + 2
  | .ldI _ | .rnd _ _ | .drw _ _ _ | .ldVxDT _ | .ldVxK _ | .ldDTVx _ | .ldSTVx _ => pc + 2
  | .addI _ | .ldF _ | .ldB _ | .storeRegs _ | .loadRegs _ => pc + 2

end Sys2Proof.Machine
end

