-- ==== Sys2Proof/Certificates/Slice0/Obligations.lean ====
section
/-! DEFINITION. The statements for the provers, by the spec's sections. A clause that rests on one of the
spec's own decisions D<n>, and not on its source, says so with its log entry. -/

open Sys2Proof Sys2Proof.Machine

/-! ## Encoding (30_encoding.md) -/

/-- Decoding the bytes of an instruction gives it back, with every operand at every value, and leaves the
bytes after it alone (R80, R84, R85). -/
def Obligations.DecodeEncodeRoundTrip : Prop :=
  ∀ (i : Instr) (rest : List Byte), i.wf = true → decodeBytes (encodeBytes i ++ rest) = .ok (i, rest)

/-- R85: a word selects a row of the map when `w & mask = match`; the rows are disjoint; the decoder reads
from a word the instruction of the row it selects, and rejects exactly the words that select none. -/
def Obligations.DecoderFollowsTheOpcodeMap : Prop :=
  ∀ w : Word,
    (∀ i, decode w = .ok i →
      i.row ∈ opcodeMap ∧ ∀ r ∈ opcodeMap, (w &&& r.mask = r.pattern ↔ r = i.row)) ∧
    ((∀ r ∈ opcodeMap, w &&& r.mask ≠ r.pattern) ↔ decode w = .error (.unknownOpcode w)) ∧
    ((∃ i, decode w = .ok i) ∨ decode w = .error (.unknownOpcode w))

/-- R81: the fields of the word are its bits 15 to 12, 11 to 8, 7 to 4, 3 to 0, 7 to 0 and 11 to 0, and an
instruction's operands are those fields. -/
def Obligations.OperandsAreTheFieldsOfTheWord : Prop :=
  ∀ w : Word,
    (opField w).toNat = w.toNat / 4096 ∧ (xField w).val = w.toNat / 256 % 16 ∧
    (yField w).val = w.toNat / 16 % 16 ∧ (nField w).toNat = w.toNat % 16 ∧
    (nnField w).toNat = w.toNat % 256 ∧ (nnnField w).toNat = w.toNat % 4096 ∧
    ∀ i, decode w = .ok i → OperandsFrom w i

/-- R86: the words listed there, and no others, are UnknownOpcode, and executing one raises UnknownOpcode
with the word as its information. -/
def Obligations.UnknownWordsRaiseUnknownOpcode : Prop :=
  ∀ w : Word,
    ((∀ i, decode w ≠ .ok i) ↔ UnknownWord w) ∧
    ∀ s : State, s.run = .running → fetch s = .ok w → UnknownWord w →
      stepReturn s = .err (.unknownOpcode w)

/-- The `x` nibble of `0?E0` and `0?EE` and the `n` nibble of `5XY?` and `9XY?` do not matter (R87; the
spec's decisions D24 and D25, log 24). -/
def Obligations.UntestedNibblesAreIgnored : Prop :=
  ∀ (x y : RegIdx) (n : BitVec 4),
    decode (packXNN 0x0 x 0xE0) = .ok .cls ∧ decode (packXNN 0x0 x 0xEE) = .ok .ret ∧
    decode (packXYN 0x5 x y n) = .ok (.seReg x y) ∧ decode (packXYN 0x9 x y n) = .ok (.sneReg x y)

/-- Words written out from R85 and the examples of R90 decode to the instructions they stand for. -/
def Obligations.SpecWordsDecode : Prop :=
  decode 0x8210 = .ok (.ldReg 2 1) ∧ decode 0x8015 = .ok (.subReg 0 1) ∧
  decode 0x8237 = .ok (.subn 2 3) ∧ decode 0x810E = .ok (.shl 1 0) ∧
  decode 0x8326 = .ok (.shr 3 2) ∧ decode 0x00E0 = .ok .cls ∧ decode 0x1ABC = .ok (.jp 0xABC) ∧
  decode 0xD45A = .ok (.drw 4 5 0xA) ∧ decode 0xE19E = .ok (.skp 1) ∧
  decode 0xF265 = .ok (.loadRegs 2)

/-! ## The execution cycle (40_cycle.md, 60_exceptions.md) -/

/-- A running step whose two bytes at `PC` decode to an instruction is exactly that instruction's meaning
at the same state, and it returns `Ok(true)` unless the instruction raises an error (R100, R104). -/
def Obligations.StepRunsTheDecodedInstruction : Prop :=
  ∀ (s : State) (i : Instr), s.run = .running → s.pc.toNat ≤ 0xFFE → i.wf = true →
    decodeBytes [s.readByte s.pc.toNat, s.readByte (s.pc.toNat + 1)] = .ok (i, []) →
    step s = exec i s ∧
      ((raises i s = none ∧ stepReturn s = .ok true) ∨
        ∃ e, raises i s = some e ∧ stepReturn s = .err e)

/-- R55 and R101: the fetch is the big-endian word at `PC` and `PC+1` for `PC <= 0xFFE`; for
`PC >= 0xFFF` it raises OutOfRange with `PC`, nothing is executed and `PC` stays. -/
def Obligations.FetchIsBigEndianAndBounded : Prop :=
  ∀ s : State,
    (s.pc.toNat ≤ 0xFFE → ∃ w, fetch s = .ok w ∧
      w.toNat = 256 * (s.readByte s.pc.toNat).toNat + (s.readByte (s.pc.toNat + 1)).toNat) ∧
    (0xFFF ≤ s.pc.toNat → fetch s = .error (.outOfRange s.pc.toNat) ∧
      (s.run = .running → stepReturn s = .err (.outOfRange s.pc.toNat) ∧
        ∃ t, step s = .next t ∧ t = { s with run := t.run } ∧ t.pc = s.pc))

/-- R105, R223: a step that returns an error changes nothing but the run state, which records its kind
(the sticky `Faulted` is the spec's decision D1, log 1). -/
def Obligations.FailedStepChangesOnlyTheRunState : Prop :=
  ∀ (s : State) (e : CoreError), stepReturn s = .err e →
    ∃ t, step s = .next t ∧ OnlyFaults e.kind s t

/-- R224: once faulted, a step changes nothing and returns the same kind again, and no host call but a new
construction leaves the fault (the spec's decision D1, log 1). -/
def Obligations.FaultIsStickyUntilConstruction : Prop :=
  ∀ (s : State) (k : ErrorKind), s.run = .faulted k →
    step s = .next s ∧ stepReturn s = .errAgain k ∧
    ∀ (c : HostCall) (t : State), hostCall c s = .next t →
      t.run = .faulted k ∨ ∃ w h, c = .construct w h

/-- R246: over every instruction and every host call, the key wait is entered by the step of an `FX0A` only
and left by `press_key` only (or by building a new block); while it lasts a step changes nothing and
returns `Ok(false)`, and `tick` keeps running (the fault of a failing step, the run state of a new block,
the press, the tick, and a load in every run state: the spec's decisions D1, D6, D18, D20 and D29, log 1,
7, 19, 21 and 27). -/
def Obligations.KeyWaitIsEnteredByLdVxKAndLeftByPressKey : Prop :=
  (∀ (i : Instr) (s t : State) (r : RegIdx), exec i s = .next t → s.run = .running →
    t.run = .awaitKey r → i = .ldVxK r) ∧
  (∀ (c : HostCall) (s t : State) (r : RegIdx), hostCall c s = .next t → s.run ≠ .awaitKey r →
    t.run = .awaitKey r →
    c = .step ∧ s.run = .running ∧ ∃ w, fetch s = .ok w ∧ decode w = .ok (.ldVxK r)) ∧
  ∀ (s : State) (r : RegIdx), s.run = .awaitKey r →
    step s = .next s ∧ stepReturn s = .ok false ∧
    (∀ (c : HostCall) (t : State), hostCall c s = .next t →
      t.run = .awaitKey r ∨ (∃ key, c = .pressKey key) ∨ ∃ w h, c = .construct w h) ∧
    (tick s).run = .awaitKey r ∧ (tick s).dt.toNat = s.dt.toNat - 1 ∧
    (tick s).st.toNat = s.st.toNat - 1

/-- R102: the next `PC` of every instruction, by its class, as an exact integer (the class table itself, the
key `Vx mod 16` of `SKP` and `SKNP`, the unmasked `BNNN`, the advance of `FX0A`: the spec's decisions D5,
D16, D27 and D28, log 6, 17, 25 and 26). -/
def Obligations.NextPCOfEveryClass : Prop :=
  ∀ (i : Instr) (s t : State), s.pc.toNat ≤ 0xFFE → raises i s = none → exec i s = .next t →
    t.pc.toNat = nextPCValue i s

/-- R220, R226: which errors a step returns, and exactly when: the fetch first, then at most one for each
instruction (informations, the bound 16 and the zero-length block: the spec's decisions D2, D3, D14,
log 2, 4, 15). -/
def Obligations.StepErrorsExactlyWhere : Prop :=
  ∀ (s : State) (e : CoreError), stepReturn s = .err e ↔
    s.run = .running ∧
      ((0xFFF ≤ s.pc.toNat ∧ e = .outOfRange s.pc.toNat) ∨
        ∃ w, fetch s = .ok w ∧
          (((∀ i, decode w ≠ .ok i) ∧ e = .unknownOpcode w) ∨
            (decode w = .ok .ret ∧ s.stack = [] ∧ e = .stackUnderflow s.pc.toNat) ∨
            (∃ nnn, decode w = .ok (.call nnn) ∧ 16 ≤ s.stack.length ∧
              e = .stackOverflow s.pc.toNat) ∨
            (∃ x y n, decode w = .ok (.drw x y n) ∧ 4096 < s.i.toNat + n.toNat ∧
              e = .outOfRange s.i.toNat) ∨
            ∃ x, decode w = .ok (.ldB x) ∧ 4096 < s.i.toNat + 3 ∧ e = .outOfRange s.i.toNat))

/-! ## Control transfer (41_control_flow.md) -/

/-- R121: `RET` takes the last entry off the stack into `PC`, at most `0x1000` in every state that meets the
invariant; on an empty stack it is StackUnderflow with `PC`, and nothing but the run state changes. -/
def Obligations.RetPopsTheLastEntry : Prop :=
  ∀ s : State,
    (∀ rest a, s.stack = rest ++ [a] → ∃ t, exec .ret s = .next t ∧
      t.pc = a ∧ t.stack = rest ∧ t = { s with pc := t.pc, stack := t.stack } ∧
      (∀ r, t.getV r = s.getV r) ∧ (∀ c, t.readByte c = s.readByte c) ∧
      (s.Inv → t.pc.toNat ≤ 0x1000)) ∧
    (s.stack = [] → raises .ret s = some (.stackUnderflow s.pc.toNat) ∧
      ∃ t, exec .ret s = .next t ∧ OnlyFaults .stackUnderflow s t)

/-- R122: `JP addr` sets `PC` to `nnn`; a jump to itself changes nothing, and after a jump to `0xFFF` the
fetch raises OutOfRange. -/
def Obligations.JpSetsPCToTheAddress : Prop :=
  ∀ (nnn : BitVec 12) (s : State), ∃ t, exec (.jp nnn) s = .next t ∧
    t.pc.toNat = nnn.toNat ∧ PCFrame s t ∧
    (nnn.toNat = s.pc.toNat → t = s) ∧ (nnn = 0xFFF → fetch t = .error (.outOfRange 0xFFF))

/-- R123: `CALL addr` pushes `PC + 2` and jumps to `nnn`, or with 16 entries on the stack is StackOverflow
with `PC` and records only that fault (the pushed value, the bound and the recorded fault: the spec's
decisions D4, D3 and D1, log 5, 4 and 1). -/
def Obligations.CallPushesTheReturnAddress : Prop :=
  ∀ (nnn : BitVec 12) (s : State),
    (s.stack.length < 16 → ∃ t, exec (.call nnn) s = .next t ∧
      t.stack = s.stack ++ [s.pc + 2#16] ∧ t.pc.toNat = nnn.toNat ∧
      t = { s with pc := t.pc, stack := t.stack } ∧
      (∀ r, t.getV r = s.getV r) ∧ ∀ c, t.readByte c = s.readByte c) ∧
    (16 ≤ s.stack.length → raises (.call nnn) s = some (.stackOverflow s.pc.toNat) ∧
      ∃ t, exec (.call nnn) s = .next t ∧ OnlyFaults .stackOverflow s t)

/-- A `CALL` followed by a `RET` comes back to the address after the call, with the state as it was (R121,
R123; the spec's decision D4, log 5). -/
def Obligations.CallThenRetReturnsPastTheCall : Prop :=
  ∀ (nnn : BitVec 12) (s : State), s.stack.length < 16 →
    ∃ t u, exec (.call nnn) s = .next t ∧ exec .ret t = .next u ∧ u = { s with pc := s.pc + 2#16 }

/-- R124 and R125: `SE Vx, byte` and `SNE Vx, byte` skip on equality and on inequality of `V[x]` and `nn`,
and write only `PC`. -/
def Obligations.SkipsOnAByte : Prop :=
  ∀ (x : RegIdx) (nn : Byte) (s : State),
    (∃ t, exec (.seByte x nn) s = .next t ∧
      t.pc = (if s.getV x = nn then s.pc + 4#16 else s.pc + 2#16) ∧ PCFrame s t) ∧
    ∃ t, exec (.sneByte x nn) s = .next t ∧
      t.pc = (if s.getV x ≠ nn then s.pc + 4#16 else s.pc + 2#16) ∧ PCFrame s t

/-- R126 and R127 without their untested nibble: `SE Vx, Vy` and `SNE Vx, Vy` skip on equality and on
inequality, write only `PC`, and with `x = y` always and never skip. -/
def Obligations.SkipsOnARegister : Prop :=
  ∀ (x y : RegIdx) (s : State),
    (∃ t, exec (.seReg x y) s = .next t ∧
      t.pc = (if s.getV x = s.getV y then s.pc + 4#16 else s.pc + 2#16) ∧ PCFrame s t ∧
      (x = y → t.pc = s.pc + 4#16)) ∧
    ∃ t, exec (.sneReg x y) s = .next t ∧
      t.pc = (if s.getV x ≠ s.getV y then s.pc + 4#16 else s.pc + 2#16) ∧ PCFrame s t ∧
      (x = y → t.pc = s.pc + 2#16)

/-- R128: `JP V0, addr` sets `PC` to the exact sum of `nnn` and `V0`; a target at or above `0xFFF` fails at
the next fetch (the sum is not reduced to 12 bits: the spec's decision D27, log 25). -/
def Obligations.JpV0AddsV0 : Prop :=
  ∀ (nnn : BitVec 12) (s : State), ∃ t, exec (.jpV0 nnn) s = .next t ∧
    t.pc.toNat = nnn.toNat + (s.getV 0).toNat ∧ PCFrame s t ∧
    (0xFFF ≤ nnn.toNat + (s.getV 0).toNat → fetch t = .error (.outOfRange t.pc.toNat))

/-! ## Register loads and arithmetic (42_alu.md) -/

/-- R141 and R143: `LD Vx, byte` and `LD Vx, Vy` write `nn` and `V[y]` to `V[x]` and nothing else but `PC`;
with `x = y` no register changes. -/
def Obligations.LoadsOfARegister : Prop :=
  ∀ (x y : RegIdx) (nn : Byte) (s : State),
    (∃ t, exec (.ldByte x nn) s = .next t ∧ t.getV x = nn ∧ RegFrame (· = x) s t) ∧
    ∃ t, exec (.ldReg x y) s = .next t ∧ t.getV x = s.getV y ∧ RegFrame (· = x) s t ∧
      (x = y → ∀ r, t.getV r = s.getV r)

/-- R142: `ADD Vx, byte` is the sum modulo 256; `VF` is not written as a carry (it changes only as `V[x]`
with `x = F`). -/
def Obligations.AddByteWrapsWithoutCarry : Prop :=
  ∀ (x : RegIdx) (nn : Byte) (s : State), ∃ t, exec (.addByte x nn) s = .next t ∧
    (t.getV x).toNat = ((s.getV x).toNat + nn.toNat) % 256 ∧ RegFrame (· = x) s t

/-- R144 to R146: OR, AND and XOR bit by bit, into `V[x]` alone; `VF` is not cleared; with `x = y` OR and
AND leave `V[x]` and XOR makes it 0. -/
def Obligations.LogicWorksBitByBit : Prop :=
  ∀ (x y : RegIdx) (s : State),
    (∃ t, exec (.orReg x y) s = .next t ∧ RegFrame (· = x) s t ∧
      (∀ k, (t.getV x).getLsbD k = ((s.getV x).getLsbD k || (s.getV y).getLsbD k)) ∧
      (x = y → t.getV x = s.getV x)) ∧
    (∃ t, exec (.andReg x y) s = .next t ∧ RegFrame (· = x) s t ∧
      (∀ k, (t.getV x).getLsbD k = ((s.getV x).getLsbD k && (s.getV y).getLsbD k)) ∧
      (x = y → t.getV x = s.getV x)) ∧
    ∃ t, exec (.xorReg x y) s = .next t ∧ RegFrame (· = x) s t ∧
      (∀ k, (t.getV x).getLsbD k = ((s.getV x).getLsbD k ^^ (s.getV y).getLsbD k)) ∧
      (x = y → t.getV x = 0)

/-- R147: `ADD Vx, Vy` is the sum modulo 256 and `VF` its carry; with `x = F` the carry stays (that order:
the spec's decision D11, log 12). -/
def Obligations.AddRegSetsSumAndCarry : Prop :=
  ∀ (x y : RegIdx) (s : State), ∃ t, exec (.addReg x y) s = .next t ∧
    (x ≠ vf → (t.getV x).toNat = ((s.getV x).toNat + (s.getV y).toNat) % 256) ∧
    (t.getV vf).toNat = (if (s.getV x).toNat + (s.getV y).toNat > 255 then 1 else 0) ∧
    RegFrame (fun r => r = x ∨ r = vf) s t

/-- R148: `SUB Vx, Vy` is `Vx - Vy` modulo 256 and `VF` is 1 exactly without a borrow; with `x = F` the flag
stays (the spec's decision D11, log 12). -/
def Obligations.SubRegSetsDifferenceAndNoBorrow : Prop :=
  ∀ (x y : RegIdx) (s : State), ∃ t, exec (.subReg x y) s = .next t ∧
    (x ≠ vf → ((t.getV x).toNat : Int) = ((s.getV x).toNat - (s.getV y).toNat : Int) % 256) ∧
    (t.getV vf).toNat = (if (s.getV y).toNat ≤ (s.getV x).toNat then 1 else 0) ∧
    RegFrame (fun r => r = x ∨ r = vf) s t

/-- R150, as the opcode table has it (C2, log 33): `SUBN Vx, Vy` is `Vy - Vx` modulo 256 and `VF` is 1
exactly without a borrow; with `x = F` the flag stays (the spec's decision D11, log 12). -/
def Obligations.SubnSetsReversedDifferenceAndNoBorrow : Prop :=
  ∀ (x y : RegIdx) (s : State), ∃ t, exec (.subn x y) s = .next t ∧
    (x ≠ vf → ((t.getV x).toNat : Int) = ((s.getV y).toNat - (s.getV x).toNat : Int) % 256) ∧
    (t.getV vf).toNat = (if (s.getV x).toNat ≤ (s.getV y).toNat then 1 else 0) ∧
    RegFrame (fun r => r = x ∨ r = vf) s t

/-- R149: `SHR Vx, Vy` halves `Vy` into `V[x]` and `VF` is the low bit of `Vy`; with `x = F` the shifted
value stays (the spec's decision D11, log 12). -/
def Obligations.ShrHalvesVy : Prop :=
  ∀ (x y : RegIdx) (s : State), ∃ t, exec (.shr x y) s = .next t ∧
    (t.getV x).toNat = (s.getV y).toNat / 2 ∧
    (x ≠ vf → (t.getV vf).toNat = (s.getV y).toNat % 2) ∧
    RegFrame (fun r => r = x ∨ r = vf) s t

/-- R151: `SHL Vx, Vy` doubles `Vy` modulo 256 into `V[x]` and `VF` is the high bit of `Vy`; with `x = F`
the shifted value stays (the spec's decision D11, log 12). -/
def Obligations.ShlDoublesVy : Prop :=
  ∀ (x y : RegIdx) (s : State), ∃ t, exec (.shl x y) s = .next t ∧
    (t.getV x).toNat = 2 * (s.getV y).toNat % 256 ∧
    (x ≠ vf → (t.getV vf).toNat = (s.getV y).toNat / 128) ∧
    RegFrame (fun r => r = x ∨ r = vf) s t

/-- R160: `RND Vx, byte` draws one byte, whatever it is, and writes it masked by `nn` (the free draw: the
spec's decision D19, log 20; the counter `draws` is the model's own). -/
def Obligations.RndMasksOneDraw : Prop :=
  ∀ (x : RegIdx) (nn : Byte) (s : State), ∃ t, exec (.rnd x nn) s = .next t ∧
    (∀ k, (t.getV x).getLsbD k = ((Config.randomByte s.draws).getLsbD k && nn.getLsbD k)) ∧
    (nn = 0x00 → t.getV x = 0) ∧ (nn = 0xFF → t.getV x = Config.randomByte s.draws) ∧
    t.draws = s.draws + 1 ∧ t = { s with v := t.v, pc := t.pc, draws := t.draws } ∧
    (∀ r, r ≠ x → t.getV r = s.getV r) ∧ ∀ a, t.readByte a = s.readByte a

/-! ## Index register and memory transfer (43_index_memory.md) -/

/-- R171: `LD I, addr` sets `I` to `nnn` zero-extended and nothing else but `PC`. -/
def Obligations.LdISetsTheIndex : Prop :=
  ∀ (nnn : BitVec 12) (s : State), ∃ t, exec (.ldI nnn) s = .next t ∧
    t.i.toNat = nnn.toNat ∧ IndexFrame s t

/-- R172 and R174: `ADD I, Vx` adds modulo 2^16 without a flag, `LD F, Vx` sets `I` to exactly
`5 * V[x]` (the wrap and the whole byte: the spec's decisions D13 and D34, log 14 and 31). -/
def Obligations.AddIAndLdFComputeTheIndex : Prop :=
  ∀ (x : RegIdx) (s : State),
    (∃ t, exec (.addI x) s = .next t ∧
      t.i.toNat = (s.i.toNat + (s.getV x).toNat) % 65536 ∧ IndexFrame s t) ∧
    ∃ t, exec (.ldF x) s = .next t ∧ t.i.toNat = 5 * (s.getV x).toNat ∧ IndexFrame s t

/-- R175: `LD B, Vx` stores hundreds, tens and ones at `I`, `I+1`, `I+2` and changes no other byte; with any
of them outside memory it is OutOfRange with `I` and no byte is written (that step leaves only the fault,
and addresses are never reduced: the spec's decisions D1 and D35, log 1 and 32). -/
def Obligations.LdBStoresTheDecimalDigits : Prop :=
  ∀ (x : RegIdx) (s : State), Memory.wf s.cfg.font s.mem →
    (s.i.toNat + 3 ≤ 4096 → ∃ t, exec (.ldB x) s = .next t ∧
      (t.readByte s.i.toNat).toNat = (s.getV x).toNat / 100 ∧
      (t.readByte (s.i.toNat + 1)).toNat = (s.getV x).toNat / 10 % 10 ∧
      (t.readByte (s.i.toNat + 2)).toNat = (s.getV x).toNat % 10 ∧
      (∀ a, a < s.i.toNat ∨ s.i.toNat + 3 ≤ a → t.readByte a = s.readByte a) ∧
      t = { s with mem := t.mem, pc := t.pc } ∧ ∀ r, t.getV r = s.getV r) ∧
    (4096 < s.i.toNat + 3 → raises (.ldB x) s = some (.outOfRange s.i.toNat) ∧
      ∃ t, exec (.ldB x) s = .next t ∧ OnlyFaults .outOfRange s t)

/-- R176 and R178: `LD [I], Vx` stores `V[r]` at `I + r` for every `r <= x` whose address exists, and no
other byte; `I` advances by the number stored; it raises nothing. -/
def Obligations.StoreRegsStoresUpToTheBound : Prop :=
  ∀ (x : RegIdx) (s : State), Memory.wf s.cfg.font s.mem →
    ∃ t, exec (.storeRegs x) s = .next t ∧ raises (.storeRegs x) s = none ∧
      (∀ r : RegIdx, r ≤ x → s.i.toNat + r.val ≤ 0xFFF → t.readByte (s.i.toNat + r.val) = s.getV r) ∧
      (∀ a, (∀ r : RegIdx, r ≤ x → s.i.toNat + r.val ≤ 0xFFF → a ≠ s.i.toNat + r.val) →
        t.readByte a = s.readByte a) ∧
      t.i.toNat = (if 0xFFF < s.i.toNat then s.i.toNat else min (s.i.toNat + x.val + 1) 0x1000) ∧
      t = { s with mem := t.mem, i := t.i, pc := t.pc } ∧ ∀ r, t.getV r = s.getV r

/-- R177 and R178: `LD Vx, [I]` loads `V[r]` from `I + r` for every `r <= x` whose address exists, and no
other register; `I` advances by the number loaded; it raises nothing. -/
def Obligations.LoadRegsLoadsUpToTheBound : Prop :=
  ∀ (x : RegIdx) (s : State),
    ∃ t, exec (.loadRegs x) s = .next t ∧ raises (.loadRegs x) s = none ∧
      (∀ r : RegIdx, r ≤ x → s.i.toNat + r.val ≤ 0xFFF → t.getV r = s.readByte (s.i.toNat + r.val)) ∧
      (∀ r : RegIdx, ¬ (r ≤ x ∧ s.i.toNat + r.val ≤ 0xFFF) → t.getV r = s.getV r) ∧
      t.i.toNat = (if 0xFFF < s.i.toNat then s.i.toNat else min (s.i.toNat + x.val + 1) 0x1000) ∧
      t = { s with v := t.v, i := t.i, pc := t.pc } ∧ ∀ a, t.readByte a = s.readByte a

/-- Registers stored by `LD [I], Vx` come back by `LD Vx, [I]` at the same index, whatever the registers
held in between (R176, R177). -/
def Obligations.StoredRegistersLoadBack : Prop :=
  ∀ (x : RegIdx) (s : State) (v : Vector Byte 16), Memory.wf s.cfg.font s.mem →
    ∃ t u, exec (.storeRegs x) s = .next t ∧
      exec (.loadRegs x) { t with v := v, i := s.i } = .next u ∧
      (∀ r : RegIdx, r ≤ x → s.i.toNat + r.val ≤ 0xFFF → u.getV r = s.getV r) ∧ u.i = t.i

/-! ## Framebuffer (44_display.md) -/

/-- R190: `CLS` turns every pixel off and changes nothing else but `PC`. -/
def Obligations.ClsTurnsEveryPixelOff : Prop :=
  ∀ s : State, ∃ t, exec .cls s = .next t ∧ (∀ px py, t.pixel px py = false) ∧
    t = { s with fb := t.fb, pc := t.pc } ∧
    (∀ r, t.getV r = s.getV r) ∧ ∀ a, t.readByte a = s.readByte a

/-- R37: pixels are addressed modulo the width and the height, so that every coordinate wraps and no access
fails: a write at `(px, py)` is read back at every coordinate equal to it modulo `W` and `H`, and no other
pixel changes. -/
def Obligations.PixelsWrapModuloTheScreen : Prop :=
  ∀ (s : State) (px py qx qy : Nat) (on : Bool),
    s.cfg.wf = true → Framebuffer.wf s.cfg.width s.cfg.height s.fb →
    s.pixel px py = s.pixel (px % s.cfg.width) (py % s.cfg.height) ∧
    (s.setPixel px py on).pixel qx qy =
      (if qx % s.cfg.width = px % s.cfg.width ∧ qy % s.cfg.height = py % s.cfg.height then on
        else s.pixel qx qy)

/-- R191, R194: a draw inside memory completes and toggles each pixel once for every set sprite bit that falls
on it after the wrap; it changes nothing else but `VF` and `PC` (bit order, sum, the old `VF` as a coordinate
for `x` or `y` = F, and `n = 0` at `I = 4096`: the spec's decisions D9, D10, D11 and D14, log 10, 11, 12 and
15). -/
def Obligations.DrwTogglesTheHitPixels : Prop :=
  ∀ (x y : RegIdx) (n : BitVec 4) (s : State), s.cfg.wf = true →
    Framebuffer.wf s.cfg.width s.cfg.height s.fb → s.i.toNat + n.toNat ≤ 4096 →
    ∃ t, exec (.drw x y n) s = .next t ∧
      (∀ px py, px < s.cfg.width → py < s.cfg.height →
        t.pixel px py = (s.pixel px py ^^ decide (spriteHits s x y n.toNat px py % 2 = 1))) ∧
      t = { s with fb := t.fb, v := t.v, pc := t.pc } ∧
      (∀ r, r ≠ vf → t.getV r = s.getV r) ∧ ∀ a, t.readByte a = s.readByte a

/-- R191, R193, R194: after a draw `VF` is 1 exactly when some XOR found its pixel lit, that is a set sprite
bit fell on a lit pixel or two fell on one, and otherwise 0 (bit order, sum, the old `VF` as a coordinate
for `x` or `y` = F, and `n = 0` at `I = 4096`: the spec's decisions D9, D10, D11 and D14, log 10, 11, 12 and
15). -/
def Obligations.DrwSetsTheCollisionFlag : Prop :=
  ∀ (x y : RegIdx) (n : BitVec 4) (s : State), s.cfg.wf = true →
    Framebuffer.wf s.cfg.width s.cfg.height s.fb → s.i.toNat + n.toNat ≤ 4096 →
    ∃ t, exec (.drw x y n) s = .next t ∧
      ((t.getV vf = 1 ∧ ∃ px py, px < s.cfg.width ∧ py < s.cfg.height ∧
          ((s.pixel px py = true ∧ 1 ≤ spriteHits s x y n.toNat px py) ∨
            2 ≤ spriteHits s x y n.toNat px py)) ∨
        (t.getV vf = 0 ∧ ∀ px py, px < s.cfg.width → py < s.cfg.height →
          spriteHits s x y n.toNat px py ≤ 1 ∧
            (s.pixel px py = true → spriteHits s x y n.toNat px py = 0)))

/-- R191: a sprite that leaves memory is OutOfRange with `I`; nothing is drawn and `VF` is unchanged; `n = 0`
is inside for `I <= 4096` and then draws nothing and clears `VF` (the zero-length bound and the recorded
fault: the spec's decisions D14 and D1, log 15 and 1). -/
def Obligations.DrwOutsideMemoryDrawsNothing : Prop :=
  ∀ (x y : RegIdx) (n : BitVec 4) (s : State),
    (4096 < s.i.toNat + n.toNat → raises (.drw x y n) s = some (.outOfRange s.i.toNat) ∧
      ∃ t, exec (.drw x y n) s = .next t ∧ OnlyFaults .outOfRange s t ∧
        ∀ px py, t.pixel px py = s.pixel px py) ∧
    (n = 0 → s.i.toNat ≤ 4096 → ∃ t, exec (.drw x y n) s = .next t ∧ t.fb = s.fb ∧ t.getV vf = 0)

/-- Drawing the same sprite twice at the same place erases it again: every pixel is as before (R191, XOR
semantics). -/
def Obligations.DrawingTwiceRestoresTheScreen : Prop :=
  ∀ (x y : RegIdx) (n : BitVec 4) (s : State), s.cfg.wf = true →
    Framebuffer.wf s.cfg.width s.cfg.height s.fb → s.i.toNat + n.toNat ≤ 4096 → x ≠ vf → y ≠ vf →
    ∃ t u, exec (.drw x y n) s = .next t ∧ exec (.drw x y n) t = .next u ∧
      ∀ px py, u.pixel px py = s.pixel px py

/-! ## Keypad and timers (45_keypad_timers.md, 60_exceptions.md) -/

/-- R200 and R201: `SKP` and `SKNP` skip on key `V[x] mod 16` pressed and not pressed, and write only `PC`
(the modulus 16: the spec's decision D16, log 17). -/
def Obligations.KeySkipsReadTheKeypad : Prop :=
  ∀ (x : RegIdx) (k : Fin 16) (s : State), k.val = (s.getV x).toNat % 16 →
    (∃ t, exec (.skp x) s = .next t ∧
      t.pc = (if s.keys.get k = true then s.pc + 4#16 else s.pc + 2#16) ∧ PCFrame s t) ∧
    ∃ t, exec (.sknp x) s = .next t ∧
      t.pc = (if s.keys.get k = true then s.pc + 2#16 else s.pc + 4#16) ∧ PCFrame s t

/-- R202, R204 and R205: `LD Vx, DT` reads the delay timer, `LD DT, Vx` and `LD ST, Vx` write the timers, and
nothing else but `PC` changes. -/
def Obligations.TimerMoves : Prop :=
  ∀ (x : RegIdx) (s : State),
    (∃ t, exec (.ldVxDT x) s = .next t ∧ t.getV x = s.dt ∧ RegFrame (· = x) s t) ∧
    (∃ t, exec (.ldDTVx x) s = .next t ∧ t.dt = s.getV x ∧ t = { s with dt := t.dt, pc := t.pc } ∧
      (∀ r, t.getV r = s.getV r) ∧ ∀ a, t.readByte a = s.readByte a) ∧
    ∃ t, exec (.ldSTVx x) s = .next t ∧ t.st = s.getV x ∧ t = { s with st := t.st, pc := t.pc } ∧
      (∀ r, t.getV r = s.getV r) ∧ ∀ a, t.readByte a = s.readByte a

/-- R203, R108, R238: `LD Vx, K` enters the wait into `V[x]` whatever keys are held and changes nothing else
but `PC`; steps then do nothing until a press of any key writes its code to `V[x]`, and the next step fetches
after the `FX0A` (the spec's decisions D18 and D28, log 19 and 26). -/
def Obligations.BlockingKeyReadWaitsForAPress : Prop :=
  ∀ (x : RegIdx) (key : Nat) (s : State), key < 16 →
    ∃ t u, exec (.ldVxK x) s = .next t ∧ t.run = .awaitKey x ∧ t.pc = s.pc + 2#16 ∧
      t = { s with run := t.run, pc := t.pc } ∧
      (∀ r, t.getV r = s.getV r) ∧ (∀ a, t.readByte a = s.readByte a) ∧
      step t = .next t ∧ pressKey key t = .next u ∧ u.run = .running ∧
      (u.getV x).toNat = key ∧ u.pc = s.pc + 2#16

/-- R236: `tick` takes 1 from `DT` and from `ST`, never below 0, and changes nothing else, in every run state
(every run state: the spec's decision D20, log 21). -/
def Obligations.TickSaturatesAtZero : Prop :=
  ∀ s : State, (tick s).dt.toNat = s.dt.toNat - 1 ∧ (tick s).st.toNat = s.st.toNat - 1 ∧
    tick s = { s with dt := (tick s).dt, st := (tick s).st } ∧ hostCall .tick s = .next (tick s)

/-- R240: `release_key(key)` clears that key's flag; no other key, not the run state and nothing else
changes. -/
def Obligations.ReleaseKeyClearsItsFlag : Prop :=
  ∀ (s : State) (key : Fin 16), ∃ t, hostCall (.releaseKey key.val) s = .next t ∧
    (∀ k : Fin 16, t.keys.get k = if k = key then false else s.keys.get k) ∧
    t = { s with keys := t.keys } ∧ t.run = s.run

/-- R238, R241: `press_key(key)` sets that key's flag in every run state; while a read waits into `V[r]` it
also writes the key's code there and resumes, and otherwise changes nothing else (C3; the spec's decision
D18, log 19). -/
def Obligations.PressKeySetsItsFlagAndResolvesAWait : Prop :=
  ∀ (s : State) (key : Fin 16), ∃ t, hostCall (.pressKey key.val) s = .next t ∧
    (∀ k : Fin 16, t.keys.get k = if k = key then true else s.keys.get k) ∧
    ((∃ r, s.run = .awaitKey r ∧ t.run = .running ∧ (t.getV r).toNat = key.val ∧
        t = { s with v := t.v, run := t.run, keys := t.keys } ∧ ∀ q, q ≠ r → t.getV q = s.getV q) ∨
      ((∀ r, s.run ≠ .awaitKey r) ∧ t = { s with keys := t.keys }))

/-! ## Memory, host calls, reset (20_memory.md, 60_exceptions.md, 70_reset_and_hazards.md) -/

/-- R61: `load` copies the whole buffer or, when a byte would be out of range, fails and writes none;
`load_program` is `load(0x200, ...)`, so that 3584 bytes load and more do not (that a failing load records no
fault, and that loads act in every run state: the spec's decisions D12 and D29, log 13 and 27). -/
def Obligations.LoadIsAtomic : Prop :=
  ∀ (s : State) (a : Nat) (bytes : List Byte), Memory.wf s.cfg.font s.mem →
    (4096 < a + bytes.length → ∃ e, s.load a bytes = .error e ∧ e.kind = .outOfRange) ∧
    (a + bytes.length ≤ 4096 → ∃ t, s.load a bytes = .ok t ∧ t = { s with mem := t.mem } ∧
      (∀ k, k < bytes.length → t.readByte (a + k) = bytes.getD k 0) ∧
      ∀ c, c < a ∨ a + bytes.length ≤ c → t.readByte c = s.readByte c) ∧
    (bytes.length ≤ 3584 → ∃ t, s.load 0x200 bytes = .ok t ∧
      hostCall (.loadProgram bytes) s = .next t) ∧
    (3584 < bytes.length → ∃ e, hostAnswer (.loadProgram bytes) s = .failed e ∧
      e.kind = .outOfRange ∧ hostCall (.loadProgram bytes) s = .next s)

/-- R51 to R54: `peek` and `poke` succeed exactly inside memory, a block of at least one byte exactly when all
its bytes lie inside; after a `poke` its address reads the byte and every other address reads as before. -/
def Obligations.AccessesAreBoundedAndPokedBytesReadBack : Prop :=
  ∀ (s : State) (a : Nat) (b : Byte), Memory.wf s.cfg.font s.mem →
    (a ≤ 0xFFF → s.peek a = .ok (s.readByte a) ∧ ∃ t, s.poke a b = .ok t ∧ t.peek a = .ok b ∧
      t = { s with mem := t.mem } ∧ ∀ c, c ≠ a → t.readByte c = s.readByte c) ∧
    (0xFFF < a → (∃ e, s.peek a = .error e ∧ e.kind = .outOfRange) ∧
      ∃ e, s.poke a b = .error e ∧ e.kind = .outOfRange) ∧
    ∀ n, 1 ≤ n → ((∃ bytes, s.block a n = .ok bytes ∧ bytes.length = n) ↔ ∀ k, k < n → a + k ≤ 0xFFF)

/-- R42, R260: the construction values. `PC` and the place of the font are the source's; every zero, `false`
and empty value is the spec's own decision D6 or D7 (log 7 and 8), so this statement is the model's choice. -/
def Obligations.ConstructionValues : Prop :=
  ∀ (w h : Nat) (s : State), 1 ≤ w → 1 ≤ h → ∃ t, hostCall (.construct w h) s = .next t ∧
    t.pc.toNat = 0x200 ∧ (∀ a, a < 80 → t.readByte a = s.cfg.font.getD a 0) ∧
    (∀ a, 80 ≤ a → t.readByte a = 0) ∧ (∀ r, t.getV r = 0) ∧ t.i = 0 ∧ t.dt = 0 ∧ t.st = 0 ∧
    t.stack = [] ∧ t.run = .running ∧ (∀ px py, t.pixel px py = false) ∧
    (∀ k, t.isKeyPressed k = false) ∧ t.cfg = ⟨w, h, s.cfg.font⟩

/-- R57 and R60: a new block starts at `0x200`, where programs are loaded, and the five bytes of the glyph of
digit `d` stand at `5 * d`, the address `FX29` loads into `I` for that digit. -/
def Obligations.EntryPointAndGlyphAddresses : Prop :=
  ∀ (w h : Nat) (s : State), 1 ≤ w → 1 ≤ h → s.cfg.font.length = 80 →
    ∃ t, hostCall (.construct w h) s = .next t ∧ t.pc.toNat = 0x200 ∧
      (∀ bytes : List Byte, bytes.length ≤ 3584 → ∃ u, hostCall (.loadProgram bytes) t = .next u ∧
        u.pc = t.pc ∧ ∀ k, k < bytes.length → u.readByte (0x200 + k) = bytes.getD k 0) ∧
      ∀ (x : RegIdx) (d k : Nat), d < 16 → k < 5 →
        s.cfg.font[5 * d + k]? = some (t.readByte (5 * d + k)) ∧
        ∃ u, exec (.ldF x) (t.setV x (BitVec.ofNat 8 d)) = .next u ∧ u.i.toNat = 5 * d

/-- The invariant holds of every legal construction, and of the canonical reset (the reset zeros: the spec's
decisions D6 and D7, log 7 and 8). -/
def Obligations.ConstructionMeetsTheInvariant : Prop :=
  State.reset.Inv ∧ ∀ cfg : Config, cfg.wf = true → (State.construct cfg).Inv

/-- Every step keeps the invariant: canonical memory, the framebuffer's shape, at most 16 return addresses of
at most `0x1000`, a `PC` of at most `0x10FE`, no InvalidRegister (R21, R26, R30, R36, R50). -/
def Obligations.StepKeepsTheInvariant : Prop :=
  ∀ s t : State, s.Inv → step s = .next t → t.Inv

/-- Every interleaving of host calls keeps the invariant, so that it holds of every state the block reaches
(R228; the free interleaving: the spec's decision D21, log 22). -/
def Obligations.EveryInterleavingKeepsTheInvariant : Prop :=
  ∀ (calls : List HostCall) (s t : State), s.Inv → hostCalls calls s = .next t → t.Inv

/-- R239, R262: a host call is turned away exactly when its input is illegal, a key above 15 or a zero size, and
every other call, `step` among them, answers a next state (the refusals: the spec's decisions D17 and D26,
log 18). -/
def Obligations.OnlyIllegalInputsAreRefused : Prop :=
  ∀ (c : HostCall) (s : State),
    ((∃ t, hostCall c s = .next t) ∧ c.wf = true) ∨
    ((∃ r, hostCall c s = .refused r) ∧
      ((∃ key, 15 < key ∧ (c = .pressKey key ∨ c = .releaseKey key)) ∨
        ∃ w h, (w = 0 ∨ h = 0) ∧ c = .construct w h))

/-- R250, R221: a debug read changes no state; a register above 15 is InvalidRegister, an address above
`0xFFF` is OutOfRange, and everything else reads its piece of state: a register, `I`, `PC`, the timers, the
stack, a byte of memory, the run state, and the renderer's pixel, wrapped (R11, R37) (no recorded fault and
what is exposed: the spec's decisions D12 and D32, log 13 and 30). -/
def Obligations.DebugReadsChangeNothing : Prop :=
  ∀ s : State, (∀ what, hostCall (.debug what) s = .next s) ∧
    (∀ r : RegIdx, hostAnswer (.debug (.register r.val)) s = .byte (s.getV r)) ∧
    (∀ k, 15 < k → hostAnswer (.debug (.register k)) s = .failed (.invalidRegister k)) ∧
    (∀ a, a ≤ 0xFFF → hostAnswer (.debug (.memory a)) s = .byte (s.readByte a)) ∧
    (∀ a, 0xFFF < a → hostAnswer (.debug (.memory a)) s = .failed (.outOfRange a)) ∧
    hostAnswer (.debug .index) s = .word s.i ∧ hostAnswer (.debug .programCounter) s = .word s.pc ∧
    hostAnswer (.debug .delayTimer) s = .byte s.dt ∧ hostAnswer (.debug .soundTimer) s = .byte s.st ∧
    hostAnswer (.debug .stack) s = .words s.stack ∧ hostAnswer (.debug .runState) s = .runState s.run ∧
    ∀ px py, hostAnswer (.debug (.pixel px py)) s =
      .bit (s.fb.at (px % s.cfg.width) (py % s.cfg.height))

/-- R110, R111: `run` stops before a zero word when asked to, and executes it otherwise, which is UnknownOpcode;
where it does not stop it makes a step, goes on after one without an error, and returns on an error of the
step; while awaiting a key it never returns (the loop and the recorded, sticky fault: the spec's decisions
D22 and D1, log 23 and 1). -/
def Obligations.RunStopsAtZeroAndWaitsForKeys : Prop :=
  ∀ (s : State) (fuel : Nat),
    (s.run = .running → s.pc.toNat ≤ 0xFFE → s.readByte s.pc.toNat = 0 →
      s.readByte (s.pc.toNat + 1) = 0 →
      runLoop true fuel s = .ok s ∧
      ∃ t, runLoop false (fuel + 1) s = .err .unknownOpcode t ∧ OnlyFaults .unknownOpcode s t) ∧
    (∀ stop, (stop = true → ¬ (s.run = .running ∧ s.pc.toNat ≤ 0xFFE ∧ s.readByte s.pc.toNat = 0 ∧
        s.readByte (s.pc.toNat + 1) = 0)) →
      runLoop stop 0 s = .notYet s ∧ ∀ t, step s = .next t →
        (∀ ran, stepReturn s = .ok ran → runLoop stop (fuel + 1) s = runLoop stop fuel t) ∧
        (∀ e, stepReturn s = .err e → runLoop stop (fuel + 1) s = .err e.kind t) ∧
        ∀ k, stepReturn s = .errAgain k → runLoop stop (fuel + 1) s = .err k t) ∧
    (∀ r stop, s.run = .awaitKey r → runLoop stop fuel s = .notYet s)

/-- Which instructions may change each piece of state (R22, R27 to R30, R34, R36, R38, R40, R63; the last
clause is about the model's own counter of draws, log 20). -/
def Obligations.WritersOfEveryPieceOfState : Prop :=
  ∀ (i : Instr) (s t : State), exec i s = .next t →
    t.cfg = s.cfg ∧ t.keys = s.keys ∧
    (∀ r, t.getV r ≠ s.getV r → WritesReg i r) ∧
    (t.i ≠ s.i → (∃ nnn, i = .ldI nnn) ∨
      ∃ x, i = .addI x ∨ i = .ldF x ∨ i = .storeRegs x ∨ i = .loadRegs x) ∧
    (t.dt ≠ s.dt → ∃ x, i = .ldDTVx x) ∧ (t.st ≠ s.st → ∃ x, i = .ldSTVx x) ∧
    (t.stack ≠ s.stack → i = .ret ∨ ∃ nnn, i = .call nnn) ∧
    (t.run ≠ s.run → (∃ x, i = .ldVxK x) ∨ ∃ e, raises i s = some e) ∧
    (t.fb ≠ s.fb → i = .cls ∨ ∃ x y n, i = .drw x y n) ∧
    (t.mem ≠ s.mem → ∃ x, i = .ldB x ∨ i = .storeRegs x) ∧
    (t.draws ≠ s.draws → ∃ x nn, i = .rnd x nn)

/-- R29: no instruction reads `ST`: two runs that differ in `ST` alone go on differing in `ST` at most. -/
def Obligations.SoundTimerIsNeverRead : Prop :=
  ∀ (i : Instr) (s : State) (b : Byte), ∃ t, exec i s = .next t ∧
    (exec i (s.setST b) = .next (t.setST b) ∨
      ((∃ x, i = .ldSTVx x) ∧ exec i (s.setST b) = .next t))
end

