-- ==== Sys2Proof/Laws/Decode.lean ====
section
/-! SUPPORT. The fields of a word as numbers, and the fields of a packed word. -/

namespace Sys2Proof

theorem opField_toNat (w : Word) : (opField w).toNat = w.toNat / 4096 := by
  have := w.isLt
  simp [opField, BitVec.extractLsb'_toNat, Nat.shiftRight_eq_div_pow]
  omega

theorem xField_val (w : Word) : (xField w).val = w.toNat / 256 % 16 := by
  simp [xField, BitVec.extractLsb'_toNat, Nat.shiftRight_eq_div_pow]

theorem yField_val (w : Word) : (yField w).val = w.toNat / 16 % 16 := by
  simp [yField, BitVec.extractLsb'_toNat, Nat.shiftRight_eq_div_pow]

theorem nField_toNat (w : Word) : (nField w).toNat = w.toNat % 16 := by
  simp [nField]

theorem nnField_toNat (w : Word) : (nnField w).toNat = w.toNat % 256 := by
  simp [nnField]

theorem nnnField_toNat (w : Word) : (nnnField w).toNat = w.toNat % 4096 := by
  simp [nnnField]

theorem packXYN_toNat (op : BitVec 4) (x y : RegIdx) (n : BitVec 4) :
    (packXYN op x y n).toNat = op.toNat * 4096 + x.val * 256 + y.val * 16 + n.toNat := by
  have h1 := op.isLt; have h2 := x.isLt; have h3 := y.isLt; have h4 := n.isLt
  simp [packXYN]; omega

theorem packXNN_toNat (op : BitVec 4) (x : RegIdx) (nn : Byte) :
    (packXNN op x nn).toNat = op.toNat * 4096 + x.val * 256 + nn.toNat := by
  have h1 := op.isLt; have h2 := x.isLt; have h3 := nn.isLt
  simp [packXNN]; omega

theorem packNNN_toNat (op : BitVec 4) (nnn : BitVec 12) :
    (packNNN op nnn).toNat = op.toNat * 4096 + nnn.toNat := by
  have h1 := op.isLt; have h2 := nnn.isLt
  simp [packNNN]; omega

@[simp] theorem opField_packXYN (op : BitVec 4) (x y : RegIdx) (n : BitVec 4) :
    opField (packXYN op x y n) = op := by
  apply BitVec.eq_of_toNat_eq
  have h2 := x.isLt; have h3 := y.isLt; have h4 := n.isLt
  rw [opField_toNat, packXYN_toNat]; omega

@[simp] theorem xField_packXYN (op : BitVec 4) (x y : RegIdx) (n : BitVec 4) :
    xField (packXYN op x y n) = x := by
  apply Fin.ext
  have h2 := x.isLt; have h3 := y.isLt; have h4 := n.isLt
  rw [xField_val, packXYN_toNat]; omega

@[simp] theorem yField_packXYN (op : BitVec 4) (x y : RegIdx) (n : BitVec 4) :
    yField (packXYN op x y n) = y := by
  apply Fin.ext
  have h2 := x.isLt; have h3 := y.isLt; have h4 := n.isLt
  rw [yField_val, packXYN_toNat]; omega

@[simp] theorem nField_packXYN (op : BitVec 4) (x y : RegIdx) (n : BitVec 4) :
    nField (packXYN op x y n) = n := by
  apply BitVec.eq_of_toNat_eq
  have h4 := n.isLt
  rw [nField_toNat, packXYN_toNat]; omega

@[simp] theorem opField_packXNN (op : BitVec 4) (x : RegIdx) (nn : Byte) :
    opField (packXNN op x nn) = op := by
  apply BitVec.eq_of_toNat_eq
  have h2 := x.isLt; have h3 := nn.isLt
  rw [opField_toNat, packXNN_toNat]; omega

@[simp] theorem xField_packXNN (op : BitVec 4) (x : RegIdx) (nn : Byte) :
    xField (packXNN op x nn) = x := by
  apply Fin.ext
  have h2 := x.isLt; have h3 := nn.isLt
  rw [xField_val, packXNN_toNat]; omega

@[simp] theorem nnField_packXNN (op : BitVec 4) (x : RegIdx) (nn : Byte) :
    nnField (packXNN op x nn) = nn := by
  apply BitVec.eq_of_toNat_eq
  have h3 := nn.isLt
  rw [nnField_toNat, packXNN_toNat]; omega

@[simp] theorem opField_packNNN (op : BitVec 4) (nnn : BitVec 12) :
    opField (packNNN op nnn) = op := by
  apply BitVec.eq_of_toNat_eq
  have h2 := nnn.isLt
  rw [opField_toNat, packNNN_toNat]; omega

@[simp] theorem nnnField_packNNN (op : BitVec 4) (nnn : BitVec 12) :
    nnnField (packNNN op nnn) = nnn := by
  apply BitVec.eq_of_toNat_eq
  have h2 := nnn.isLt
  rw [nnnField_toNat, packNNN_toNat]; omega

/-- The word of two bytes, high byte first, as a number (R55). -/
theorem wordOfBytes_toNat (hi lo : Byte) : (wordOfBytes hi lo).toNat = hi.toNat * 256 + lo.toNat := by
  have h := lo.isLt
  simp only [wordOfBytes, BitVec.toNat_append]
  rw [Nat.shiftLeft_eq, ← Nat.shiftLeft_eq, ← Nat.shiftLeft_add_eq_or_of_lt h, Nat.shiftLeft_eq]

/-- Splitting a word into its bytes and joining them again gives the word. -/
theorem wordOfBytes_bytesOfWord (w : Word) :
    wordOfBytes (w.extractLsb' 8 8) (w.extractLsb' 0 8) = w := by
  apply BitVec.eq_of_toNat_eq
  have := w.isLt
  rw [wordOfBytes_toNat]
  simp [BitVec.extractLsb'_toNat, Nat.shiftRight_eq_div_pow]
  omega

/-! ## The masks of the opcode map -/

theorem and_opMask_toNat (w : Word) : (w &&& 0xF000#16).toNat = w.toNat / 4096 * 4096 := by
  have hw := w.isLt
  have h1 : w &&& 0xF000#16 = (w >>> 12) <<< 12 := by
    apply BitVec.eq_of_getLsbD_eq
    intro k hk
    interval_cases k <;> simp
  rw [h1]
  simp [BitVec.toNat_shiftLeft, BitVec.toNat_ushiftRight, Nat.shiftRight_eq_div_pow, Nat.shiftLeft_eq]
  omega

/-- A mask that keeps `op` and some bits below it splits into the two parts. -/
theorem and_opMask_add (w m : Word) (hm : m &&& 0xF000#16 = 0) :
    w &&& (0xF000#16 ||| m) = (w &&& 0xF000#16) + (w &&& m) := by
  have h0 : w &&& 0xF000#16 &&& (w &&& m) = 0#16 := by
    apply BitVec.eq_of_getLsbD_eq
    intro k hk
    have := congrArg (fun v => v.getLsbD k) hm
    simp only [BitVec.getLsbD_and, BitVec.ofNat_eq_ofNat, BitVec.getLsbD_zero] at this ⊢
    cases w.getLsbD k <;> cases h1 : m.getLsbD k <;> simp_all
  rw [BitVec.add_eq_or_of_and_eq_zero _ _ h0]
  apply BitVec.eq_of_getLsbD_eq
  intro k hk
  simp only [BitVec.getLsbD_and, BitVec.getLsbD_or]
  cases w.getLsbD k <;> simp

theorem and_opNMask_toNat (w : Word) :
    (w &&& 0xF00F#16).toNat = w.toNat / 4096 * 4096 + w.toNat % 16 := by
  have hw := w.isLt
  have h2 : w.toNat &&& 15 = w.toNat % 16 := Nat.and_two_pow_sub_one_eq_mod w.toNat 4
  have h := and_opMask_add w 0xF#16 (by decide)
  have e : (0xF000#16 ||| 0xF#16) = 0xF00F#16 := by decide
  rw [← e, h, BitVec.toNat_add, and_opMask_toNat]
  simp [h2]
  omega

theorem and_opNNMask_toNat (w : Word) :
    (w &&& 0xF0FF#16).toNat = w.toNat / 4096 * 4096 + w.toNat % 256 := by
  have hw := w.isLt
  have h2 : w.toNat &&& 255 = w.toNat % 256 := Nat.and_two_pow_sub_one_eq_mod w.toNat 8
  have h := and_opMask_add w 0xFF#16 (by decide)
  have e : (0xF000#16 ||| 0xFF#16) = 0xF0FF#16 := by decide
  rw [← e, h, BitVec.toNat_add, and_opMask_toNat]
  simp [h2]
  omega

end Sys2Proof
end

