-- ==== Sys2Proof/Laws/Framebuffer.lean ====
section
/-! SUPPORT. The framebuffer: its shape is kept, and a pixel read after a pixel write. -/

namespace Sys2Proof.Machine

theorem Framebuffer.blank_wf (w h : Nat) : Framebuffer.wf w h (Framebuffer.blank w h) := by
  refine ⟨by simp [Framebuffer.blank], fun row hr => ?_⟩
  simp only [Framebuffer.blank, List.mem_replicate] at hr
  simp [hr.2]

/-- Every pixel of the blank framebuffer reads `false`. -/
theorem Framebuffer.pixel_blank (w h px py w' h' : Nat) :
    Framebuffer.pixel w' h' (Framebuffer.blank w h) px py = false := by
  simp only [Framebuffer.pixel, Framebuffer.at, Framebuffer.blank, List.getD_eq_getElem?_getD,
    List.getElem?_replicate]
  split_ifs
  · simp only [Option.getD_some, List.getElem?_replicate]; split_ifs <;> rfl
  · simp

theorem Framebuffer.row_length {w h : Nat} {fb : Framebuffer} (hf : Framebuffer.wf w h fb) {cy : Nat}
    (hy : cy < h) : (fb.getD cy []).length = w := by
  have hlt : cy < fb.length := by rw [hf.1]; exact hy
  simp only [List.getD_eq_getElem?_getD, List.getElem?_eq_getElem hlt, Option.getD_some]
  exact hf.2 _ (List.getElem_mem hlt)

theorem Framebuffer.put_wf {w h : Nat} {fb : Framebuffer} (hf : Framebuffer.wf w h fb) (cx cy : Nat)
    (on : Bool) : Framebuffer.wf w h (fb.put cx cy on) := by
  refine ⟨by simp [Framebuffer.put, hf.1], fun row hr => ?_⟩
  rcases Nat.lt_or_ge cy h with hy | hy
  · rcases List.mem_or_eq_of_mem_set hr with hr | rfl
    · exact hf.2 row hr
    · simpa using Framebuffer.row_length hf hy
  · have : fb.set cy ((fb.getD cy []).set cx on) = fb :=
      List.set_eq_of_length_le (by rw [hf.1]; exact hy)
    rw [Framebuffer.put, this] at hr
    exact hf.2 row hr

/-- A write to a pixel of the screen changes that pixel alone. -/
theorem Framebuffer.at_put {w h : Nat} {fb : Framebuffer} (hf : Framebuffer.wf w h fb) {cx cy : Nat}
    (hx : cx < w) (hy : cy < h) (on : Bool) (qx qy : Nat) :
    (fb.put cx cy on).at qx qy = if qx = cx ∧ qy = cy then on else fb.at qx qy := by
  have hlen : cy < fb.length := by rw [hf.1]; exact hy
  have hrow := Framebuffer.row_length hf hy
  by_cases h1 : qy = cy
  · subst h1
    have e : (fb.put cx qy on).at qx qy = ((fb.getD qy []).set cx on).getD qx false := by
      simp [Framebuffer.at, Framebuffer.put, List.getD_eq_getElem?_getD, hlen]
    rw [e]
    by_cases h2 : qx = cx
    · subst h2
      have : qx < (fb.getD qy []).length := by rw [hrow]; exact hx
      simp only [and_self, if_true, List.getD_eq_getElem?_getD] at this ⊢
      simp [this]
    · have hne : cx ≠ qx := fun e => h2 e.symm
      simp [h2, Framebuffer.at, List.getD_eq_getElem?_getD, hne]
  · have hne : cy ≠ qy := fun e => h1 e.symm
    simp [h1, Framebuffer.at, Framebuffer.put, List.getD_eq_getElem?_getD, hne]

theorem Framebuffer.setPixel_wf {w h : Nat} {fb : Framebuffer} (hf : Framebuffer.wf w h fb)
    (px py : Nat) (on : Bool) : Framebuffer.wf w h (Framebuffer.setPixel w h fb px py on) :=
  Framebuffer.put_wf hf _ _ on

/-- A pixel read after a pixel write, both wrapped (R37). -/
theorem Framebuffer.pixel_setPixel {w h : Nat} {fb : Framebuffer} (hf : Framebuffer.wf w h fb)
    (hw : 1 ≤ w) (hh : 1 ≤ h) (px py qx qy : Nat) (on : Bool) :
    Framebuffer.pixel w h (Framebuffer.setPixel w h fb px py on) qx qy =
      if qx % w = px % w ∧ qy % h = py % h then on else Framebuffer.pixel w h fb qx qy :=
  Framebuffer.at_put hf (Nat.mod_lt _ hw) (Nat.mod_lt _ hh) on _ _

end Sys2Proof.Machine
end

