-- ==== Sys2Proof/Laws/Memory.lean ====
section
/-! SUPPORT. The byte store: a read after a write, and that every write keeps the canonical form. -/

namespace Sys2Proof.Machine

theorem Memory.read_insert (font : List Byte) (m : Memory) (a c : Nat) (b : Byte) :
    Memory.read font (Memory.insert m a b) c = if c = a then b else Memory.read font m c := by
  induction m with
  | nil => simp [Memory.insert, Memory.read]
  | cons p m ih =>
    obtain ⟨k, d⟩ := p
    by_cases h1 : a < k
    · simp [Memory.insert, Memory.read, h1]
    · by_cases h2 : a = k
      · subst h2
        by_cases hc : c = a <;> simp [Memory.insert, Memory.read, hc]
      · by_cases hk : c = k
        · have hne : k ≠ a := fun e => h2 e.symm
          simp [Memory.insert, Memory.read, h1, h2, hk, hne]
        · simp [Memory.insert, Memory.read, h1, h2, hk, ih]

/-- An address that no listed cell has reads as its construction value. -/
theorem Memory.read_unlisted (font : List Byte) (m : Memory) (a : Nat)
    (h : ∀ c ∈ m, c.1 ≠ a) : Memory.read font m a = Memory.initial font a := by
  induction m with
  | nil => rfl
  | cons p m ih =>
    have hp := h p (by simp)
    simp only [Memory.read]
    rw [if_neg (fun e => hp e.symm)]
    exact ih fun c hc => h c (by simp [hc])

theorem Memory.read_erase (font : List Byte) (m : Memory) (a c : Nat)
    (hm : m.Pairwise (fun p q => p.1 < q.1)) :
    Memory.read font (Memory.erase m a) c =
      if c = a then Memory.initial font a else Memory.read font m c := by
  induction m with
  | nil => by_cases hc : c = a <;> simp [Memory.erase, Memory.read, hc]
  | cons p m ih =>
    obtain ⟨k, d⟩ := p
    obtain ⟨hk, hm'⟩ := List.pairwise_cons.mp hm
    by_cases h1 : a = k
    · subst h1
      by_cases hc : c = a
      · subst hc
        simpa [Memory.erase] using
          Memory.read_unlisted font m c fun q hq => (Nat.ne_of_lt (hk q hq)).symm
      · simp [Memory.erase, Memory.read, hc]
    · by_cases hc : c = k
      · have hne : k ≠ a := fun e => h1 e.symm
        simp [Memory.erase, Memory.read, h1, hc, hne]
      · simp [Memory.erase, Memory.read, h1, hc, ih hm']

/-- A read after a write: the written byte at its address, every other address as before. -/
theorem Memory.read_write (font : List Byte) (m : Memory) (a c : Nat) (b : Byte)
    (hm : m.Pairwise (fun p q => p.1 < q.1)) :
    Memory.read font (Memory.write font m a b) c = if c = a then b else Memory.read font m c := by
  simp only [Memory.write]
  split_ifs with h1 h2 h2
  · rw [Memory.read_erase font m a c hm, if_pos h2, h1]
  · rw [Memory.read_erase font m a c hm, if_neg h2]
  · rw [Memory.read_insert, if_pos h2]
  · rw [Memory.read_insert, if_neg h2]

theorem Memory.mem_insert {m : Memory} {a : Nat} {b : Byte} {c : Host.Cell}
    (h : c ∈ Memory.insert m a b) : c = (a, b) ∨ c ∈ m := by
  induction m with
  | nil => simpa [Memory.insert] using h
  | cons p m ih =>
    obtain ⟨k, d⟩ := p
    simp only [Memory.insert] at h
    split_ifs at h with h1 h2
    · simpa using h
    · rcases List.mem_cons.mp h with h | h <;> simp [h]
    · rcases List.mem_cons.mp h with h | h
      · simp [h]
      · rcases ih h with h | h <;> simp [h]

theorem Memory.mem_erase {m : Memory} {a : Nat} {c : Host.Cell} (h : c ∈ Memory.erase m a) :
    c ∈ m := by
  induction m with
  | nil => simp [Memory.erase] at h
  | cons p m ih =>
    obtain ⟨k, d⟩ := p
    simp only [Memory.erase] at h
    split_ifs at h with h1
    · simp [h]
    · rcases List.mem_cons.mp h with h | h
      · simp [h]
      · simp [ih h]

theorem Memory.insert_rising {m : Memory} (a : Nat) (b : Byte)
    (hm : m.Pairwise (fun p q => p.1 < q.1)) :
    (Memory.insert m a b).Pairwise (fun p q => p.1 < q.1) := by
  induction m with
  | nil => simp [Memory.insert]
  | cons p m ih =>
    obtain ⟨k, d⟩ := p
    obtain ⟨hk, hm'⟩ := List.pairwise_cons.mp hm
    simp only [Memory.insert]
    split_ifs with h1 h2
    · refine List.pairwise_cons.mpr ⟨fun q hq => ?_, hm⟩
      rcases List.mem_cons.mp hq with rfl | hq
      · exact h1
      · exact Nat.lt_trans h1 (hk q hq)
    · subst h2; exact List.pairwise_cons.mpr ⟨hk, hm'⟩
    · refine List.pairwise_cons.mpr ⟨fun q hq => ?_, ih hm'⟩
      rcases Memory.mem_insert hq with rfl | hq
      · exact Nat.lt_of_le_of_ne (Nat.le_of_not_lt h1) (fun e => h2 e.symm)
      · exact hk q hq

theorem Memory.erase_rising {m : Memory} (a : Nat)
    (hm : m.Pairwise (fun p q => p.1 < q.1)) :
    (Memory.erase m a).Pairwise (fun p q => p.1 < q.1) := by
  induction m with
  | nil => simp [Memory.erase]
  | cons p m ih =>
    obtain ⟨k, d⟩ := p
    obtain ⟨hk, hm'⟩ := List.pairwise_cons.mp hm
    simp only [Memory.erase]
    split_ifs
    · exact hm'
    · exact List.pairwise_cons.mpr ⟨fun q hq => hk q (Memory.mem_erase hq), ih hm'⟩

/-- A write inside memory keeps the canonical form. -/
theorem Memory.write_wf {font : List Byte} {m : Memory} (a : Nat) (b : Byte)
    (hm : Memory.wf font m) (ha : a < Config.memSize) : Memory.wf font (Memory.write font m a b) := by
  simp only [Memory.write]
  split_ifs with h
  · exact ⟨Memory.erase_rising a hm.1, fun c hc => hm.2 c (Memory.mem_erase hc)⟩
  · refine ⟨Memory.insert_rising a b hm.1, fun c hc => ?_⟩
    rcases Memory.mem_insert hc with rfl | hc
    · exact ⟨ha, h⟩
    · exact hm.2 c hc

theorem Memory.write_rising {font : List Byte} {m : Memory} (a : Nat) (b : Byte)
    (hm : m.Pairwise (fun p q => p.1 < q.1)) :
    (Memory.write font m a b).Pairwise (fun p q => p.1 < q.1) := by
  simp only [Memory.write]
  split_ifs
  · exact Memory.erase_rising a hm
  · exact Memory.insert_rising a b hm

/-- Bytes written at rising addresses keep the canonical form. -/
theorem Memory.writeBytes_wf {font : List Byte} (bs : List Byte) :
    ∀ {m : Memory} (a : Nat), Memory.wf font m → a + bs.length ≤ Config.memSize →
      Memory.wf font (Memory.writeBytes font m a bs) := by
  induction bs with
  | nil => intro m a hm _; exact hm
  | cons b bs ih =>
    intro m a hm h
    simp only [List.length_cons] at h
    exact ih (a + 1) (Memory.write_wf a b hm (by omega)) (by omega)

/-- A read after a run of bytes is written: the byte of the run inside it, as before outside. -/
theorem Memory.read_writeBytes (font : List Byte) (bs : List Byte) :
    ∀ (m : Memory) (a c : Nat), m.Pairwise (fun p q => p.1 < q.1) →
      Memory.read font (Memory.writeBytes font m a bs) c =
        if a ≤ c ∧ c < a + bs.length then bs.getD (c - a) 0 else Memory.read font m c := by
  induction bs with
  | nil =>
    intro m a c _
    rw [if_neg (by simp)]
    rfl
  | cons b bs ih =>
    intro m a c hm
    simp only [Memory.writeBytes, ih _ _ _ (Memory.write_rising a b hm), List.length_cons,
      Memory.read_write font m a c b hm]
    by_cases h1 : c = a
    · subst h1
      rw [if_neg (by omega), if_pos rfl, if_pos (by omega)]
      simp
    · by_cases h2 : a + 1 ≤ c ∧ c < a + 1 + bs.length
      · rw [if_pos h2, if_pos (by omega)]
        have : c - a = (c - (a + 1)) + 1 := by omega
        rw [this, List.getD_cons_succ]
      · rw [if_neg h2, if_neg h1, if_neg (by omega)]

@[simp] theorem Memory.readBytes_length (font : List Byte) (m : Memory) (n : Nat) :
    ∀ a, (Memory.readBytes font m a n).length = n := by
  induction n with
  | zero => intro a; rfl
  | succ n ih => intro a; simp [Memory.readBytes, ih]

/-- The k-th byte of a block is the byte at its address. -/
theorem Memory.readBytes_getD (font : List Byte) (m : Memory) (n : Nat) :
    ∀ a k, k < n → (Memory.readBytes font m a n).getD k 0 = Memory.read font m (a + k) := by
  induction n with
  | zero => intro a k h; omega
  | succ n ih =>
    intro a k h
    cases k with
    | zero => simp [Memory.readBytes]
    | succ k =>
      simp only [Memory.readBytes, List.getD_cons_succ]
      rw [ih (a + 1) k (by omega)]
      congr 1
      omega

end Sys2Proof.Machine
end

