-- ==== Sys2Proof/Laws/State.lean ====
section
/-! SUPPORT. One lemma for each field under each update, and for each observation (`getV`, `readByte`,
`pixel`, `isKeyPressed`) under each update that leaves it alone; all true by `rfl`. -/

namespace Sys2Proof.Machine

/-! ### `setV` -/

@[simp] theorem State.setV_cfg (s : State) (x : RegIdx) (b : Byte) : (s.setV x b).cfg = s.cfg := rfl
@[simp] theorem State.setV_v (s : State) (x : RegIdx) (b : Byte) : (s.setV x b).v = s.v.set x b := rfl
@[simp] theorem State.setV_i (s : State) (x : RegIdx) (b : Byte) : (s.setV x b).i = s.i := rfl
@[simp] theorem State.setV_pc (s : State) (x : RegIdx) (b : Byte) : (s.setV x b).pc = s.pc := rfl
@[simp] theorem State.setV_dt (s : State) (x : RegIdx) (b : Byte) : (s.setV x b).dt = s.dt := rfl
@[simp] theorem State.setV_st (s : State) (x : RegIdx) (b : Byte) : (s.setV x b).st = s.st := rfl
@[simp] theorem State.setV_stack (s : State) (x : RegIdx) (b : Byte) : (s.setV x b).stack = s.stack := rfl
@[simp] theorem State.setV_run (s : State) (x : RegIdx) (b : Byte) : (s.setV x b).run = s.run := rfl
@[simp] theorem State.setV_mem (s : State) (x : RegIdx) (b : Byte) : (s.setV x b).mem = s.mem := rfl
@[simp] theorem State.setV_fb (s : State) (x : RegIdx) (b : Byte) : (s.setV x b).fb = s.fb := rfl
@[simp] theorem State.setV_keys (s : State) (x : RegIdx) (b : Byte) : (s.setV x b).keys = s.keys := rfl
@[simp] theorem State.setV_draws (s : State) (x : RegIdx) (b : Byte) : (s.setV x b).draws = s.draws := rfl
@[simp] theorem State.setV_readByte (s : State) (x : RegIdx) (b : Byte) (p : Nat) : (s.setV x b).readByte p = s.readByte p := rfl
@[simp] theorem State.setV_pixel (s : State) (x : RegIdx) (b : Byte) (px py : Nat) : (s.setV x b).pixel px py = s.pixel px py := rfl
@[simp] theorem State.setV_isKeyPressed (s : State) (x : RegIdx) (b : Byte) (p : Nat) : (s.setV x b).isKeyPressed p = s.isKeyPressed p := rfl

/-! ### `setRegs` -/

@[simp] theorem State.setRegs_cfg (s : State) (v : Vector Byte 16) : (s.setRegs v).cfg = s.cfg := rfl
@[simp] theorem State.setRegs_v (s : State) (v : Vector Byte 16) : (s.setRegs v).v = v := rfl
@[simp] theorem State.setRegs_i (s : State) (v : Vector Byte 16) : (s.setRegs v).i = s.i := rfl
@[simp] theorem State.setRegs_pc (s : State) (v : Vector Byte 16) : (s.setRegs v).pc = s.pc := rfl
@[simp] theorem State.setRegs_dt (s : State) (v : Vector Byte 16) : (s.setRegs v).dt = s.dt := rfl
@[simp] theorem State.setRegs_st (s : State) (v : Vector Byte 16) : (s.setRegs v).st = s.st := rfl
@[simp] theorem State.setRegs_stack (s : State) (v : Vector Byte 16) : (s.setRegs v).stack = s.stack := rfl
@[simp] theorem State.setRegs_run (s : State) (v : Vector Byte 16) : (s.setRegs v).run = s.run := rfl
@[simp] theorem State.setRegs_mem (s : State) (v : Vector Byte 16) : (s.setRegs v).mem = s.mem := rfl
@[simp] theorem State.setRegs_fb (s : State) (v : Vector Byte 16) : (s.setRegs v).fb = s.fb := rfl
@[simp] theorem State.setRegs_keys (s : State) (v : Vector Byte 16) : (s.setRegs v).keys = s.keys := rfl
@[simp] theorem State.setRegs_draws (s : State) (v : Vector Byte 16) : (s.setRegs v).draws = s.draws := rfl
@[simp] theorem State.setRegs_readByte (s : State) (v : Vector Byte 16) (p : Nat) : (s.setRegs v).readByte p = s.readByte p := rfl
@[simp] theorem State.setRegs_pixel (s : State) (v : Vector Byte 16) (px py : Nat) : (s.setRegs v).pixel px py = s.pixel px py := rfl
@[simp] theorem State.setRegs_isKeyPressed (s : State) (v : Vector Byte 16) (p : Nat) : (s.setRegs v).isKeyPressed p = s.isKeyPressed p := rfl

/-! ### `setI` -/

@[simp] theorem State.setI_cfg (s : State) (a : Word) : (s.setI a).cfg = s.cfg := rfl
@[simp] theorem State.setI_v (s : State) (a : Word) : (s.setI a).v = s.v := rfl
@[simp] theorem State.setI_i (s : State) (a : Word) : (s.setI a).i = a := rfl
@[simp] theorem State.setI_pc (s : State) (a : Word) : (s.setI a).pc = s.pc := rfl
@[simp] theorem State.setI_dt (s : State) (a : Word) : (s.setI a).dt = s.dt := rfl
@[simp] theorem State.setI_st (s : State) (a : Word) : (s.setI a).st = s.st := rfl
@[simp] theorem State.setI_stack (s : State) (a : Word) : (s.setI a).stack = s.stack := rfl
@[simp] theorem State.setI_run (s : State) (a : Word) : (s.setI a).run = s.run := rfl
@[simp] theorem State.setI_mem (s : State) (a : Word) : (s.setI a).mem = s.mem := rfl
@[simp] theorem State.setI_fb (s : State) (a : Word) : (s.setI a).fb = s.fb := rfl
@[simp] theorem State.setI_keys (s : State) (a : Word) : (s.setI a).keys = s.keys := rfl
@[simp] theorem State.setI_draws (s : State) (a : Word) : (s.setI a).draws = s.draws := rfl
@[simp] theorem State.setI_getV (s : State) (a : Word) (q : RegIdx) : (s.setI a).getV q = s.getV q := rfl
@[simp] theorem State.setI_readByte (s : State) (a : Word) (p : Nat) : (s.setI a).readByte p = s.readByte p := rfl
@[simp] theorem State.setI_pixel (s : State) (a : Word) (px py : Nat) : (s.setI a).pixel px py = s.pixel px py := rfl
@[simp] theorem State.setI_isKeyPressed (s : State) (a : Word) (p : Nat) : (s.setI a).isKeyPressed p = s.isKeyPressed p := rfl

/-! ### `setPC` -/

@[simp] theorem State.setPC_cfg (s : State) (a : Word) : (s.setPC a).cfg = s.cfg := rfl
@[simp] theorem State.setPC_v (s : State) (a : Word) : (s.setPC a).v = s.v := rfl
@[simp] theorem State.setPC_i (s : State) (a : Word) : (s.setPC a).i = s.i := rfl
@[simp] theorem State.setPC_pc (s : State) (a : Word) : (s.setPC a).pc = a := rfl
@[simp] theorem State.setPC_dt (s : State) (a : Word) : (s.setPC a).dt = s.dt := rfl
@[simp] theorem State.setPC_st (s : State) (a : Word) : (s.setPC a).st = s.st := rfl
@[simp] theorem State.setPC_stack (s : State) (a : Word) : (s.setPC a).stack = s.stack := rfl
@[simp] theorem State.setPC_run (s : State) (a : Word) : (s.setPC a).run = s.run := rfl
@[simp] theorem State.setPC_mem (s : State) (a : Word) : (s.setPC a).mem = s.mem := rfl
@[simp] theorem State.setPC_fb (s : State) (a : Word) : (s.setPC a).fb = s.fb := rfl
@[simp] theorem State.setPC_keys (s : State) (a : Word) : (s.setPC a).keys = s.keys := rfl
@[simp] theorem State.setPC_draws (s : State) (a : Word) : (s.setPC a).draws = s.draws := rfl
@[simp] theorem State.setPC_getV (s : State) (a : Word) (q : RegIdx) : (s.setPC a).getV q = s.getV q := rfl
@[simp] theorem State.setPC_readByte (s : State) (a : Word) (p : Nat) : (s.setPC a).readByte p = s.readByte p := rfl
@[simp] theorem State.setPC_pixel (s : State) (a : Word) (px py : Nat) : (s.setPC a).pixel px py = s.pixel px py := rfl
@[simp] theorem State.setPC_isKeyPressed (s : State) (a : Word) (p : Nat) : (s.setPC a).isKeyPressed p = s.isKeyPressed p := rfl

/-! ### `setDT` -/

@[simp] theorem State.setDT_cfg (s : State) (b : Byte) : (s.setDT b).cfg = s.cfg := rfl
@[simp] theorem State.setDT_v (s : State) (b : Byte) : (s.setDT b).v = s.v := rfl
@[simp] theorem State.setDT_i (s : State) (b : Byte) : (s.setDT b).i = s.i := rfl
@[simp] theorem State.setDT_pc (s : State) (b : Byte) : (s.setDT b).pc = s.pc := rfl
@[simp] theorem State.setDT_dt (s : State) (b : Byte) : (s.setDT b).dt = b := rfl
@[simp] theorem State.setDT_st (s : State) (b : Byte) : (s.setDT b).st = s.st := rfl
@[simp] theorem State.setDT_stack (s : State) (b : Byte) : (s.setDT b).stack = s.stack := rfl
@[simp] theorem State.setDT_run (s : State) (b : Byte) : (s.setDT b).run = s.run := rfl
@[simp] theorem State.setDT_mem (s : State) (b : Byte) : (s.setDT b).mem = s.mem := rfl
@[simp] theorem State.setDT_fb (s : State) (b : Byte) : (s.setDT b).fb = s.fb := rfl
@[simp] theorem State.setDT_keys (s : State) (b : Byte) : (s.setDT b).keys = s.keys := rfl
@[simp] theorem State.setDT_draws (s : State) (b : Byte) : (s.setDT b).draws = s.draws := rfl
@[simp] theorem State.setDT_getV (s : State) (b : Byte) (q : RegIdx) : (s.setDT b).getV q = s.getV q := rfl
@[simp] theorem State.setDT_readByte (s : State) (b : Byte) (p : Nat) : (s.setDT b).readByte p = s.readByte p := rfl
@[simp] theorem State.setDT_pixel (s : State) (b : Byte) (px py : Nat) : (s.setDT b).pixel px py = s.pixel px py := rfl
@[simp] theorem State.setDT_isKeyPressed (s : State) (b : Byte) (p : Nat) : (s.setDT b).isKeyPressed p = s.isKeyPressed p := rfl

/-! ### `setST` -/

@[simp] theorem State.setST_cfg (s : State) (b : Byte) : (s.setST b).cfg = s.cfg := rfl
@[simp] theorem State.setST_v (s : State) (b : Byte) : (s.setST b).v = s.v := rfl
@[simp] theorem State.setST_i (s : State) (b : Byte) : (s.setST b).i = s.i := rfl
@[simp] theorem State.setST_pc (s : State) (b : Byte) : (s.setST b).pc = s.pc := rfl
@[simp] theorem State.setST_dt (s : State) (b : Byte) : (s.setST b).dt = s.dt := rfl
@[simp] theorem State.setST_st (s : State) (b : Byte) : (s.setST b).st = b := rfl
@[simp] theorem State.setST_stack (s : State) (b : Byte) : (s.setST b).stack = s.stack := rfl
@[simp] theorem State.setST_run (s : State) (b : Byte) : (s.setST b).run = s.run := rfl
@[simp] theorem State.setST_mem (s : State) (b : Byte) : (s.setST b).mem = s.mem := rfl
@[simp] theorem State.setST_fb (s : State) (b : Byte) : (s.setST b).fb = s.fb := rfl
@[simp] theorem State.setST_keys (s : State) (b : Byte) : (s.setST b).keys = s.keys := rfl
@[simp] theorem State.setST_draws (s : State) (b : Byte) : (s.setST b).draws = s.draws := rfl
@[simp] theorem State.setST_getV (s : State) (b : Byte) (q : RegIdx) : (s.setST b).getV q = s.getV q := rfl
@[simp] theorem State.setST_readByte (s : State) (b : Byte) (p : Nat) : (s.setST b).readByte p = s.readByte p := rfl
@[simp] theorem State.setST_pixel (s : State) (b : Byte) (px py : Nat) : (s.setST b).pixel px py = s.pixel px py := rfl
@[simp] theorem State.setST_isKeyPressed (s : State) (b : Byte) (p : Nat) : (s.setST b).isKeyPressed p = s.isKeyPressed p := rfl

/-! ### `setStack` -/

@[simp] theorem State.setStack_cfg (s : State) (l : List Word) : (s.setStack l).cfg = s.cfg := rfl
@[simp] theorem State.setStack_v (s : State) (l : List Word) : (s.setStack l).v = s.v := rfl
@[simp] theorem State.setStack_i (s : State) (l : List Word) : (s.setStack l).i = s.i := rfl
@[simp] theorem State.setStack_pc (s : State) (l : List Word) : (s.setStack l).pc = s.pc := rfl
@[simp] theorem State.setStack_dt (s : State) (l : List Word) : (s.setStack l).dt = s.dt := rfl
@[simp] theorem State.setStack_st (s : State) (l : List Word) : (s.setStack l).st = s.st := rfl
@[simp] theorem State.setStack_stack (s : State) (l : List Word) : (s.setStack l).stack = l := rfl
@[simp] theorem State.setStack_run (s : State) (l : List Word) : (s.setStack l).run = s.run := rfl
@[simp] theorem State.setStack_mem (s : State) (l : List Word) : (s.setStack l).mem = s.mem := rfl
@[simp] theorem State.setStack_fb (s : State) (l : List Word) : (s.setStack l).fb = s.fb := rfl
@[simp] theorem State.setStack_keys (s : State) (l : List Word) : (s.setStack l).keys = s.keys := rfl
@[simp] theorem State.setStack_draws (s : State) (l : List Word) : (s.setStack l).draws = s.draws := rfl
@[simp] theorem State.setStack_getV (s : State) (l : List Word) (q : RegIdx) : (s.setStack l).getV q = s.getV q := rfl
@[simp] theorem State.setStack_readByte (s : State) (l : List Word) (p : Nat) : (s.setStack l).readByte p = s.readByte p := rfl
@[simp] theorem State.setStack_pixel (s : State) (l : List Word) (px py : Nat) : (s.setStack l).pixel px py = s.pixel px py := rfl
@[simp] theorem State.setStack_isKeyPressed (s : State) (l : List Word) (p : Nat) : (s.setStack l).isKeyPressed p = s.isKeyPressed p := rfl

/-! ### `setRun` -/

@[simp] theorem State.setRun_cfg (s : State) (r : RunState) : (s.setRun r).cfg = s.cfg := rfl
@[simp] theorem State.setRun_v (s : State) (r : RunState) : (s.setRun r).v = s.v := rfl
@[simp] theorem State.setRun_i (s : State) (r : RunState) : (s.setRun r).i = s.i := rfl
@[simp] theorem State.setRun_pc (s : State) (r : RunState) : (s.setRun r).pc = s.pc := rfl
@[simp] theorem State.setRun_dt (s : State) (r : RunState) : (s.setRun r).dt = s.dt := rfl
@[simp] theorem State.setRun_st (s : State) (r : RunState) : (s.setRun r).st = s.st := rfl
@[simp] theorem State.setRun_stack (s : State) (r : RunState) : (s.setRun r).stack = s.stack := rfl
@[simp] theorem State.setRun_run (s : State) (r : RunState) : (s.setRun r).run = r := rfl
@[simp] theorem State.setRun_mem (s : State) (r : RunState) : (s.setRun r).mem = s.mem := rfl
@[simp] theorem State.setRun_fb (s : State) (r : RunState) : (s.setRun r).fb = s.fb := rfl
@[simp] theorem State.setRun_keys (s : State) (r : RunState) : (s.setRun r).keys = s.keys := rfl
@[simp] theorem State.setRun_draws (s : State) (r : RunState) : (s.setRun r).draws = s.draws := rfl
@[simp] theorem State.setRun_getV (s : State) (r : RunState) (q : RegIdx) : (s.setRun r).getV q = s.getV q := rfl
@[simp] theorem State.setRun_readByte (s : State) (r : RunState) (p : Nat) : (s.setRun r).readByte p = s.readByte p := rfl
@[simp] theorem State.setRun_pixel (s : State) (r : RunState) (px py : Nat) : (s.setRun r).pixel px py = s.pixel px py := rfl
@[simp] theorem State.setRun_isKeyPressed (s : State) (r : RunState) (p : Nat) : (s.setRun r).isKeyPressed p = s.isKeyPressed p := rfl

/-! ### `setMem` -/

@[simp] theorem State.setMem_cfg (s : State) (m : Memory) : (s.setMem m).cfg = s.cfg := rfl
@[simp] theorem State.setMem_v (s : State) (m : Memory) : (s.setMem m).v = s.v := rfl
@[simp] theorem State.setMem_i (s : State) (m : Memory) : (s.setMem m).i = s.i := rfl
@[simp] theorem State.setMem_pc (s : State) (m : Memory) : (s.setMem m).pc = s.pc := rfl
@[simp] theorem State.setMem_dt (s : State) (m : Memory) : (s.setMem m).dt = s.dt := rfl
@[simp] theorem State.setMem_st (s : State) (m : Memory) : (s.setMem m).st = s.st := rfl
@[simp] theorem State.setMem_stack (s : State) (m : Memory) : (s.setMem m).stack = s.stack := rfl
@[simp] theorem State.setMem_run (s : State) (m : Memory) : (s.setMem m).run = s.run := rfl
@[simp] theorem State.setMem_mem (s : State) (m : Memory) : (s.setMem m).mem = m := rfl
@[simp] theorem State.setMem_fb (s : State) (m : Memory) : (s.setMem m).fb = s.fb := rfl
@[simp] theorem State.setMem_keys (s : State) (m : Memory) : (s.setMem m).keys = s.keys := rfl
@[simp] theorem State.setMem_draws (s : State) (m : Memory) : (s.setMem m).draws = s.draws := rfl
@[simp] theorem State.setMem_getV (s : State) (m : Memory) (q : RegIdx) : (s.setMem m).getV q = s.getV q := rfl
@[simp] theorem State.setMem_pixel (s : State) (m : Memory) (px py : Nat) : (s.setMem m).pixel px py = s.pixel px py := rfl
@[simp] theorem State.setMem_isKeyPressed (s : State) (m : Memory) (p : Nat) : (s.setMem m).isKeyPressed p = s.isKeyPressed p := rfl

/-! ### `setFb` -/

@[simp] theorem State.setFb_cfg (s : State) (fb : Framebuffer) : (s.setFb fb).cfg = s.cfg := rfl
@[simp] theorem State.setFb_v (s : State) (fb : Framebuffer) : (s.setFb fb).v = s.v := rfl
@[simp] theorem State.setFb_i (s : State) (fb : Framebuffer) : (s.setFb fb).i = s.i := rfl
@[simp] theorem State.setFb_pc (s : State) (fb : Framebuffer) : (s.setFb fb).pc = s.pc := rfl
@[simp] theorem State.setFb_dt (s : State) (fb : Framebuffer) : (s.setFb fb).dt = s.dt := rfl
@[simp] theorem State.setFb_st (s : State) (fb : Framebuffer) : (s.setFb fb).st = s.st := rfl
@[simp] theorem State.setFb_stack (s : State) (fb : Framebuffer) : (s.setFb fb).stack = s.stack := rfl
@[simp] theorem State.setFb_run (s : State) (fb : Framebuffer) : (s.setFb fb).run = s.run := rfl
@[simp] theorem State.setFb_mem (s : State) (fb : Framebuffer) : (s.setFb fb).mem = s.mem := rfl
@[simp] theorem State.setFb_fb (s : State) (fb : Framebuffer) : (s.setFb fb).fb = fb := rfl
@[simp] theorem State.setFb_keys (s : State) (fb : Framebuffer) : (s.setFb fb).keys = s.keys := rfl
@[simp] theorem State.setFb_draws (s : State) (fb : Framebuffer) : (s.setFb fb).draws = s.draws := rfl
@[simp] theorem State.setFb_getV (s : State) (fb : Framebuffer) (q : RegIdx) : (s.setFb fb).getV q = s.getV q := rfl
@[simp] theorem State.setFb_readByte (s : State) (fb : Framebuffer) (p : Nat) : (s.setFb fb).readByte p = s.readByte p := rfl
@[simp] theorem State.setFb_isKeyPressed (s : State) (fb : Framebuffer) (p : Nat) : (s.setFb fb).isKeyPressed p = s.isKeyPressed p := rfl

/-! ### `setKey` -/

@[simp] theorem State.setKey_cfg (s : State) (k : Fin 16) (on : Bool) : (s.setKey k on).cfg = s.cfg := rfl
@[simp] theorem State.setKey_v (s : State) (k : Fin 16) (on : Bool) : (s.setKey k on).v = s.v := rfl
@[simp] theorem State.setKey_i (s : State) (k : Fin 16) (on : Bool) : (s.setKey k on).i = s.i := rfl
@[simp] theorem State.setKey_pc (s : State) (k : Fin 16) (on : Bool) : (s.setKey k on).pc = s.pc := rfl
@[simp] theorem State.setKey_dt (s : State) (k : Fin 16) (on : Bool) : (s.setKey k on).dt = s.dt := rfl
@[simp] theorem State.setKey_st (s : State) (k : Fin 16) (on : Bool) : (s.setKey k on).st = s.st := rfl
@[simp] theorem State.setKey_stack (s : State) (k : Fin 16) (on : Bool) : (s.setKey k on).stack = s.stack := rfl
@[simp] theorem State.setKey_run (s : State) (k : Fin 16) (on : Bool) : (s.setKey k on).run = s.run := rfl
@[simp] theorem State.setKey_mem (s : State) (k : Fin 16) (on : Bool) : (s.setKey k on).mem = s.mem := rfl
@[simp] theorem State.setKey_fb (s : State) (k : Fin 16) (on : Bool) : (s.setKey k on).fb = s.fb := rfl
@[simp] theorem State.setKey_keys (s : State) (k : Fin 16) (on : Bool) : (s.setKey k on).keys = s.keys.set k on := rfl
@[simp] theorem State.setKey_draws (s : State) (k : Fin 16) (on : Bool) : (s.setKey k on).draws = s.draws := rfl
@[simp] theorem State.setKey_getV (s : State) (k : Fin 16) (on : Bool) (q : RegIdx) : (s.setKey k on).getV q = s.getV q := rfl
@[simp] theorem State.setKey_readByte (s : State) (k : Fin 16) (on : Bool) (p : Nat) : (s.setKey k on).readByte p = s.readByte p := rfl
@[simp] theorem State.setKey_pixel (s : State) (k : Fin 16) (on : Bool) (px py : Nat) : (s.setKey k on).pixel px py = s.pixel px py := rfl

/-! ### `setDraws` -/

@[simp] theorem State.setDraws_cfg (s : State) (n : Nat) : (s.setDraws n).cfg = s.cfg := rfl
@[simp] theorem State.setDraws_v (s : State) (n : Nat) : (s.setDraws n).v = s.v := rfl
@[simp] theorem State.setDraws_i (s : State) (n : Nat) : (s.setDraws n).i = s.i := rfl
@[simp] theorem State.setDraws_pc (s : State) (n : Nat) : (s.setDraws n).pc = s.pc := rfl
@[simp] theorem State.setDraws_dt (s : State) (n : Nat) : (s.setDraws n).dt = s.dt := rfl
@[simp] theorem State.setDraws_st (s : State) (n : Nat) : (s.setDraws n).st = s.st := rfl
@[simp] theorem State.setDraws_stack (s : State) (n : Nat) : (s.setDraws n).stack = s.stack := rfl
@[simp] theorem State.setDraws_run (s : State) (n : Nat) : (s.setDraws n).run = s.run := rfl
@[simp] theorem State.setDraws_mem (s : State) (n : Nat) : (s.setDraws n).mem = s.mem := rfl
@[simp] theorem State.setDraws_fb (s : State) (n : Nat) : (s.setDraws n).fb = s.fb := rfl
@[simp] theorem State.setDraws_keys (s : State) (n : Nat) : (s.setDraws n).keys = s.keys := rfl
@[simp] theorem State.setDraws_draws (s : State) (n : Nat) : (s.setDraws n).draws = n := rfl
@[simp] theorem State.setDraws_getV (s : State) (n : Nat) (q : RegIdx) : (s.setDraws n).getV q = s.getV q := rfl
@[simp] theorem State.setDraws_readByte (s : State) (n : Nat) (p : Nat) : (s.setDraws n).readByte p = s.readByte p := rfl
@[simp] theorem State.setDraws_pixel (s : State) (n : Nat) (px py : Nat) : (s.setDraws n).pixel px py = s.pixel px py := rfl
@[simp] theorem State.setDraws_isKeyPressed (s : State) (n : Nat) (p : Nat) : (s.setDraws n).isKeyPressed p = s.isKeyPressed p := rfl

/-! ### `advance` -/

@[simp] theorem State.advance_cfg (s : State) : (s.advance).cfg = s.cfg := rfl
@[simp] theorem State.advance_v (s : State) : (s.advance).v = s.v := rfl
@[simp] theorem State.advance_i (s : State) : (s.advance).i = s.i := rfl
@[simp] theorem State.advance_pc (s : State) : (s.advance).pc = s.pc + 2#16 := rfl
@[simp] theorem State.advance_dt (s : State) : (s.advance).dt = s.dt := rfl
@[simp] theorem State.advance_st (s : State) : (s.advance).st = s.st := rfl
@[simp] theorem State.advance_stack (s : State) : (s.advance).stack = s.stack := rfl
@[simp] theorem State.advance_run (s : State) : (s.advance).run = s.run := rfl
@[simp] theorem State.advance_mem (s : State) : (s.advance).mem = s.mem := rfl
@[simp] theorem State.advance_fb (s : State) : (s.advance).fb = s.fb := rfl
@[simp] theorem State.advance_keys (s : State) : (s.advance).keys = s.keys := rfl
@[simp] theorem State.advance_draws (s : State) : (s.advance).draws = s.draws := rfl
@[simp] theorem State.advance_getV (s : State) (q : RegIdx) : (s.advance).getV q = s.getV q := rfl
@[simp] theorem State.advance_readByte (s : State) (p : Nat) : (s.advance).readByte p = s.readByte p := rfl
@[simp] theorem State.advance_pixel (s : State) (px py : Nat) : (s.advance).pixel px py = s.pixel px py := rfl
@[simp] theorem State.advance_isKeyPressed (s : State) (p : Nat) : (s.advance).isKeyPressed p = s.isKeyPressed p := rfl

/-! ### `skipIf` -/

@[simp] theorem State.skipIf_cfg (s : State) (c : Bool) : (s.skipIf c).cfg = s.cfg := rfl
@[simp] theorem State.skipIf_v (s : State) (c : Bool) : (s.skipIf c).v = s.v := rfl
@[simp] theorem State.skipIf_i (s : State) (c : Bool) : (s.skipIf c).i = s.i := rfl
@[simp] theorem State.skipIf_pc (s : State) (c : Bool) : (s.skipIf c).pc = if c then s.pc + 4#16 else s.pc + 2#16 := rfl
@[simp] theorem State.skipIf_dt (s : State) (c : Bool) : (s.skipIf c).dt = s.dt := rfl
@[simp] theorem State.skipIf_st (s : State) (c : Bool) : (s.skipIf c).st = s.st := rfl
@[simp] theorem State.skipIf_stack (s : State) (c : Bool) : (s.skipIf c).stack = s.stack := rfl
@[simp] theorem State.skipIf_run (s : State) (c : Bool) : (s.skipIf c).run = s.run := rfl
@[simp] theorem State.skipIf_mem (s : State) (c : Bool) : (s.skipIf c).mem = s.mem := rfl
@[simp] theorem State.skipIf_fb (s : State) (c : Bool) : (s.skipIf c).fb = s.fb := rfl
@[simp] theorem State.skipIf_keys (s : State) (c : Bool) : (s.skipIf c).keys = s.keys := rfl
@[simp] theorem State.skipIf_draws (s : State) (c : Bool) : (s.skipIf c).draws = s.draws := rfl
@[simp] theorem State.skipIf_getV (s : State) (c : Bool) (q : RegIdx) : (s.skipIf c).getV q = s.getV q := rfl
@[simp] theorem State.skipIf_readByte (s : State) (c : Bool) (p : Nat) : (s.skipIf c).readByte p = s.readByte p := rfl
@[simp] theorem State.skipIf_pixel (s : State) (c : Bool) (px py : Nat) : (s.skipIf c).pixel px py = s.pixel px py := rfl
@[simp] theorem State.skipIf_isKeyPressed (s : State) (c : Bool) (p : Nat) : (s.skipIf c).isKeyPressed p = s.isKeyPressed p := rfl

/-! ### `afterDraw` -/

@[simp] theorem State.afterDraw_cfg (s : State) : (s.afterDraw).cfg = s.cfg := rfl
@[simp] theorem State.afterDraw_v (s : State) : (s.afterDraw).v = s.v := rfl
@[simp] theorem State.afterDraw_i (s : State) : (s.afterDraw).i = s.i := rfl
@[simp] theorem State.afterDraw_pc (s : State) : (s.afterDraw).pc = s.pc := rfl
@[simp] theorem State.afterDraw_dt (s : State) : (s.afterDraw).dt = s.dt := rfl
@[simp] theorem State.afterDraw_st (s : State) : (s.afterDraw).st = s.st := rfl
@[simp] theorem State.afterDraw_stack (s : State) : (s.afterDraw).stack = s.stack := rfl
@[simp] theorem State.afterDraw_run (s : State) : (s.afterDraw).run = s.run := rfl
@[simp] theorem State.afterDraw_mem (s : State) : (s.afterDraw).mem = s.mem := rfl
@[simp] theorem State.afterDraw_fb (s : State) : (s.afterDraw).fb = s.fb := rfl
@[simp] theorem State.afterDraw_keys (s : State) : (s.afterDraw).keys = s.keys := rfl
@[simp] theorem State.afterDraw_draws (s : State) : (s.afterDraw).draws = s.draws + 1 := rfl
@[simp] theorem State.afterDraw_getV (s : State) (q : RegIdx) : (s.afterDraw).getV q = s.getV q := rfl
@[simp] theorem State.afterDraw_readByte (s : State) (p : Nat) : (s.afterDraw).readByte p = s.readByte p := rfl
@[simp] theorem State.afterDraw_pixel (s : State) (px py : Nat) : (s.afterDraw).pixel px py = s.pixel px py := rfl
@[simp] theorem State.afterDraw_isKeyPressed (s : State) (p : Nat) : (s.afterDraw).isKeyPressed p = s.isKeyPressed p := rfl

/-! ### What an update makes of the observation it writes -/

/-- A register read after a register write. -/
@[simp] theorem State.getV_setV (s : State) (x q : RegIdx) (b : Byte) :
    (s.setV x b).getV q = if q = x then b else s.getV q := by
  by_cases h : q = x
  · subst h; simp [State.getV, State.setV, Vector.get_eq_getElem]
  · have hv : x.val ≠ q.val := fun e => h (Fin.ext e.symm)
    simp [State.getV, State.setV, Vector.get_eq_getElem, hv, h]

/-- A key read after a key write. -/
@[simp] theorem State.isKeyPressed_setKey (s : State) (k : Fin 16) (on : Bool) (p : Nat) :
    (s.setKey k on).isKeyPressed p = if keyOf p = k then on else s.isKeyPressed p := by
  by_cases h : keyOf p = k
  · subst h; simp [State.isKeyPressed, State.setKey, Vector.get_eq_getElem]
  · have hv : k.val ≠ (keyOf p).val := fun e => h (Fin.ext e.symm)
    simp [State.isKeyPressed, State.setKey, Vector.get_eq_getElem, hv, h]

/-- Writing all sixteen registers makes each of them that register. -/
@[simp] theorem State.getV_setRegs (s : State) (v : Vector Byte 16) (q : RegIdx) :
    (s.setRegs v).getV q = v.get q := rfl

/-- Two states that agree on every field are one state. -/
theorem State.ext_fields {s t : State} (h1 : s.cfg = t.cfg) (h2 : s.v = t.v) (h3 : s.i = t.i)
    (h4 : s.pc = t.pc) (h5 : s.dt = t.dt) (h6 : s.st = t.st) (h7 : s.stack = t.stack)
    (h8 : s.run = t.run) (h9 : s.mem = t.mem) (h10 : s.fb = t.fb) (h11 : s.keys = t.keys)
    (h12 : s.draws = t.draws) : s = t := by
  cases s; cases t; simp_all

end Sys2Proof.Machine
end

