-- ==== Sys2Proof/Laws/Ops.lean ====
section
/-! SUPPORT. One lemma for each shared operation that says once everything it can do; later proofs cite
these and do not unfold the operations. -/

namespace Sys2Proof.Machine

/-! ### Sixteen-bit sums as exact integers -/

@[simp] theorem zext16_toNat (nnn : BitVec 12) : (zext16 nnn).toNat = nnn.toNat := by
  have := nnn.isLt
  simp only [zext16, BitVec.toNat_setWidth]
  omega

@[simp] theorem zextByte_toNat (b : Byte) : (zextByte b).toNat = b.toNat := by
  have := b.isLt
  simp only [zextByte, BitVec.toNat_setWidth]
  omega

/-- `PC + 2` does not wrap where a fetch succeeds (R26). -/
theorem pc_add_two {s : State} (h : s.pc.toNat ≤ 0xFFE) : (s.pc + 2#16).toNat = s.pc.toNat + 2 := by
  rw [BitVec.toNat_add]
  simp
  omega

/-- `PC + 4` does not wrap where a fetch succeeds (R26). -/
theorem pc_add_four {s : State} (h : s.pc.toNat ≤ 0xFFE) : (s.pc + 4#16).toNat = s.pc.toNat + 4 := by
  rw [BitVec.toNat_add]
  simp
  omega

/-! ### Errors -/

/-- Taking an error answers a next state that differs in the run state alone. -/
theorem raise_onlyFaults (e : CoreError) (s : State) :
    ∃ t, raise e s = .next t ∧ OnlyFaults e.kind s t :=
  ⟨_, rfl, rfl, rfl, rfl, fun _ => rfl, fun _ => rfl⟩

@[simp] theorem errorOf_ok {α : Type} (a : α) : errorOf (.ok a : Except CoreError α) = none := rfl

@[simp] theorem errorOf_error {α : Type} (e : CoreError) :
    errorOf (.error e : Except CoreError α) = some e := rfl

/-! ### Memory accesses -/

/-- `load` writes the whole run where it fits, and otherwise fails with the first address. -/
theorem State.load_cases (s : State) (a : Nat) (bs : List Byte) :
    (a + bs.length ≤ 4096 ∧ s.load a bs = .ok (s.setMem (Memory.writeBytes s.cfg.font s.mem a bs))) ∨
      (4096 < a + bs.length ∧ s.load a bs = .error (.outOfRange a)) := by
  by_cases h : a + bs.length ≤ 4096
  · exact .inl ⟨h, by simp [State.load, blockInRange, h]⟩
  · exact .inr ⟨by omega, by simp [State.load, blockInRange, h]⟩

/-- `block` reads the whole run where it fits, and otherwise fails with the first address. -/
theorem State.block_cases (s : State) (a n : Nat) :
    (a + n ≤ 4096 ∧ s.block a n = .ok (Memory.readBytes s.cfg.font s.mem a n)) ∨
      (4096 < a + n ∧ s.block a n = .error (.outOfRange a)) := by
  by_cases h : a + n ≤ 4096
  · exact .inl ⟨h, by simp [State.block, blockInRange, h]⟩
  · exact .inr ⟨by omega, by simp [State.block, blockInRange, h]⟩

/-- The bytes of memory after a run of bytes is written. -/
theorem State.readByte_setMem_writeBytes (s : State) (a : Nat) (bs : List Byte) (c : Nat)
    (hm : Memory.wf s.cfg.font s.mem) :
    (s.setMem (Memory.writeBytes s.cfg.font s.mem a bs)).readByte c =
      if a ≤ c ∧ c < a + bs.length then bs.getD (c - a) 0 else s.readByte c :=
  Memory.read_writeBytes s.cfg.font bs s.mem a c hm.1

/-- The fetch: the big-endian word at `PC`, or OutOfRange with `PC`. -/
theorem fetch_cases (s : State) :
    (s.pc.toNat ≤ 0xFFE ∧
        fetch s = .ok (wordOfBytes (s.readByte s.pc.toNat) (s.readByte (s.pc.toNat + 1)))) ∨
      (0xFFF ≤ s.pc.toNat ∧ fetch s = .error (.outOfRange s.pc.toNat)) := by
  by_cases h : s.pc.toNat + 2 > 4096
  · exact .inr ⟨by omega, by simp [fetch, h]⟩
  · exact .inl ⟨by omega, by simp [fetch, h]⟩

/-! ### The call stack -/

/-- `push` appends below the bound and otherwise fails with `PC`. -/
theorem State.push_cases (s : State) (a : Word) :
    (s.stack.length < 16 ∧ s.push a = .ok (s.stack ++ [a])) ∨
      (16 ≤ s.stack.length ∧ s.push a = .error (.stackOverflow s.pc.toNat)) := by
  by_cases h : 16 ≤ s.stack.length
  · exact .inr ⟨h, by simp [State.push, h]⟩
  · exact .inl ⟨by omega, by simp [State.push, h]⟩

/-- `pop` takes the last entry off and otherwise fails with `PC`. -/
theorem State.pop_cases (s : State) :
    (∃ rest a, s.stack = rest ++ [a] ∧ s.pop = .ok (a, rest)) ∨
      (s.stack = [] ∧ s.pop = .error (.stackUnderflow s.pc.toNat)) := by
  rcases List.eq_nil_or_concat s.stack with h | ⟨rest, a, h⟩
  · exact .inr ⟨h, by simp [State.pop, h]⟩
  · exact .inl ⟨rest, a, by simpa using h, by simp [State.pop, h]⟩

/-! ### Register lists -/

/-- The registers after a list of bytes is put from `V[k]` on. -/
theorem putRegs_get (bs : List Byte) :
    ∀ (v : Vector Byte 16) (k : Nat) (q : RegIdx),
      (putRegs v k bs).get q =
        if k ≤ q.val ∧ q.val < k + bs.length then bs.getD (q.val - k) 0 else v.get q := by
  induction bs with
  | nil =>
    intro v k q
    rw [if_neg (by simp)]
    rfl
  | cons b bs ih =>
    intro v k q
    simp only [putRegs, ih, List.length_cons]
    by_cases h1 : q.val = k
    · subst h1
      rw [if_neg (by omega), if_pos (by omega)]
      simp [Vector.get_eq_getElem]
    · by_cases h2 : k + 1 ≤ q.val ∧ q.val < k + 1 + bs.length
      · rw [if_pos h2, if_pos (by omega)]
        have : q.val - k = (q.val - (k + 1)) + 1 := by omega
        rw [this, List.getD_cons_succ]
      · rw [if_neg h2, if_neg (by omega)]
        have hne : k ≠ q.val := fun e => h1 e.symm
        simp [Vector.get_eq_getElem, hne]

@[simp] theorem firstRegs_length (v : Vector Byte 16) {n : Nat} (h : n ≤ 16) :
    (firstRegs v n).length = n := by
  simp [firstRegs, h]

theorem firstRegs_getD (v : Vector Byte 16) (n : Nat) (q : RegIdx) (h : q.val < n) :
    (firstRegs v n).getD q.val 0 = v.get q := by
  have hq := q.isLt
  simp [firstRegs, List.getD_eq_getElem?_getD, h, Vector.get_eq_getElem]

theorem transferCount_le (base : Nat) (x : RegIdx) : transferCount base x ≤ 16 := by
  have := x.isLt
  simp only [transferCount]
  omega

/-- A register is within a transfer's reach exactly when its address exists. -/
theorem lt_transferCount (base : Nat) (x q : RegIdx) :
    q.val < transferCount base x ↔ q ≤ x ∧ base + q.val ≤ 0xFFF := by
  simp only [transferCount, Config.memSize, Fin.le_def]
  omega

/-! ### The meanings -/

/-- Every meaning answers a next state: there is no fault and no refusal. -/
theorem exec_next (i : Instr) (s : State) : ∃ t, exec i s = .next t := by
  cases i with
  | ret =>
    rcases s.pop_cases with ⟨rest, a, _, h⟩ | ⟨_, h⟩ <;> exact ⟨_, by simp only [exec, execRet, h]; rfl⟩
  | call nnn =>
    rcases s.push_cases (s.pc + 2#16) with ⟨_, h⟩ | ⟨_, h⟩ <;>
      exact ⟨_, by simp only [exec, execCall, h]; rfl⟩
  | drw x y n =>
    rcases s.block_cases s.i.toNat n.toNat with ⟨_, h⟩ | ⟨_, h⟩ <;>
      exact ⟨_, by simp only [exec, execDrw, h]; rfl⟩
  | ldB x =>
    rcases s.load_cases s.i.toNat (bcdDigits (s.getV x)) with ⟨_, h⟩ | ⟨_, h⟩ <;>
      exact ⟨_, by simp only [exec, execLdB, h]; rfl⟩
  | cls => exact ⟨_, rfl⟩
  | jp nnn => exact ⟨_, rfl⟩
  | seByte x nn => exact ⟨_, rfl⟩
  | sneByte x nn => exact ⟨_, rfl⟩
  | seReg x y => exact ⟨_, rfl⟩
  | ldByte x nn => exact ⟨_, rfl⟩
  | addByte x nn => exact ⟨_, rfl⟩
  | ldReg x y => exact ⟨_, rfl⟩
  | orReg x y => exact ⟨_, rfl⟩
  | andReg x y => exact ⟨_, rfl⟩
  | xorReg x y => exact ⟨_, rfl⟩
  | addReg x y => exact ⟨_, rfl⟩
  | subReg x y => exact ⟨_, rfl⟩
  | shr x y => exact ⟨_, rfl⟩
  | subn x y => exact ⟨_, rfl⟩
  | shl x y => exact ⟨_, rfl⟩
  | sneReg x y => exact ⟨_, rfl⟩
  | ldI nnn => exact ⟨_, rfl⟩
  | jpV0 nnn => exact ⟨_, rfl⟩
  | rnd x nn => exact ⟨_, rfl⟩
  | skp x => exact ⟨_, rfl⟩
  | sknp x => exact ⟨_, rfl⟩
  | ldVxDT x => exact ⟨_, rfl⟩
  | ldVxK x => exact ⟨_, rfl⟩
  | ldDTVx x => exact ⟨_, rfl⟩
  | ldSTVx x => exact ⟨_, rfl⟩
  | addI x => exact ⟨_, rfl⟩
  | ldF x => exact ⟨_, rfl⟩
  | storeRegs x => exact ⟨_, rfl⟩
  | loadRegs x => exact ⟨_, rfl⟩

/-- An instruction that raises an error does exactly that (R226). -/
theorem exec_of_raises {i : Instr} {s : State} {e : CoreError} (h : raises i s = some e) :
    exec i s = raise e s := by
  cases i <;> simp only [raises] at h <;> try contradiction
  · rcases s.pop_cases with ⟨rest, a, _, hp⟩ | ⟨_, hp⟩ <;> simp_all [exec, execRet]
  · rcases s.push_cases (s.pc + 2#16) with ⟨_, hp⟩ | ⟨_, hp⟩ <;> simp_all [exec, execCall]
  · rename_i x y n
    rcases s.block_cases s.i.toNat n.toNat with ⟨_, hp⟩ | ⟨_, hp⟩ <;> simp_all [exec, execDrw]
  · rename_i x
    rcases s.load_cases s.i.toNat (bcdDigits (s.getV x)) with ⟨_, hp⟩ | ⟨_, hp⟩ <;>
      simp_all [exec, execLdB]

end Sys2Proof.Machine
end

