-- ==== Sys2Proof/Laws/Draw.lean ====
section
/-! SUPPORT. A draw is a sequence of XORs at a list of points; what it makes of each pixel is the parity
of the points that fall on it, and its collision is a point that falls on a lit pixel. -/

namespace Sys2Proof.Machine

/-- The XORs of a draw, one after another. -/
def xorPoints (w h : Nat) (ps : List (Nat × Nat)) (d : Framebuffer × Bool) : Framebuffer × Bool :=
  ps.foldl (fun d p => xorPixel w h p.1 p.2 d) d

/-- The points of one row's set bits. -/
def rowPoints (px py : Nat) (row : Byte) (cols : List Nat) : List (Nat × Nat) :=
  (cols.filter (spriteBit row)).map fun c => (px + c, py)

/-- The points of a sprite's set bits, in drawing order. -/
def spritePoints (px : Nat) : Nat → List Byte → List (Nat × Nat)
  | _, [] => []
  | py, row :: rows => rowPoints px py row [0, 1, 2, 3, 4, 5, 6, 7] ++ spritePoints px (py + 1) rows

theorem drawCols_eq_xorPoints (w h px py : Nat) (row : Byte) (cols : List Nat) :
    ∀ d, drawCols w h px py row cols d = xorPoints w h (rowPoints px py row cols) d := by
  induction cols with
  | nil => intro d; rfl
  | cons c cols ih =>
    intro d
    rw [drawCols, ih]
    by_cases hb : spriteBit row c = true <;> simp [rowPoints, xorPoints, hb]

theorem drawRows_eq_xorPoints (w h px : Nat) (rows : List Byte) :
    ∀ py d, drawRows w h px py rows d = xorPoints w h (spritePoints px py rows) d := by
  induction rows with
  | nil => intro py d; rfl
  | cons row rows ih =>
    intro py d
    rw [drawRows, ih, drawCols_eq_xorPoints]
    simp [spritePoints, xorPoints]

/-- How many points fall on a pixel after the wrap. -/
def hitsAt (w h : Nat) (ps : List (Nat × Nat)) (qx qy : Nat) : Nat :=
  ps.countP fun p => decide (p.1 % w = qx) && decide (p.2 % h = qy)

theorem xorPixel_wf {w h : Nat} {d : Framebuffer × Bool} (hf : Framebuffer.wf w h d.1) (px py : Nat) :
    Framebuffer.wf w h (xorPixel w h px py d).1 :=
  Framebuffer.setPixel_wf hf _ _ _

theorem xorPoints_wf {w h : Nat} (ps : List (Nat × Nat)) :
    ∀ {d : Framebuffer × Bool}, Framebuffer.wf w h d.1 → Framebuffer.wf w h (xorPoints w h ps d).1 := by
  induction ps with
  | nil => intro d hf; exact hf
  | cons p ps ih => intro d hf; exact ih (xorPixel_wf hf p.1 p.2)

/-- A draw keeps the framebuffer's shape. -/
theorem drawRows_wf {w h : Nat} {fb : Framebuffer} (hf : Framebuffer.wf w h fb) (px py : Nat)
    (rows : List Byte) (c : Bool) : Framebuffer.wf w h (drawRows w h px py rows (fb, c)).1 := by
  rw [drawRows_eq_xorPoints]
  exact xorPoints_wf _ hf

/-- One XOR toggles its pixel and no other. -/
theorem pixel_xorPixel {w h : Nat} {d : Framebuffer × Bool} (hf : Framebuffer.wf w h d.1) (hw : 1 ≤ w)
    (hh : 1 ≤ h) (px py : Nat) {qx qy : Nat} (hx : qx < w) (hy : qy < h) :
    Framebuffer.pixel w h (xorPixel w h px py d).1 qx qy =
      (Framebuffer.pixel w h d.1 qx qy ^^ (decide (px % w = qx) && decide (py % h = qy))) := by
  simp only [xorPixel]
  rw [Framebuffer.pixel_setPixel hf hw hh, Nat.mod_eq_of_lt hx, Nat.mod_eq_of_lt hy]
  by_cases h1 : px % w = qx ∧ py % h = qy
  · obtain ⟨rfl, rfl⟩ := h1
    simp [Framebuffer.pixel]
  · rw [if_neg (fun e => h1 ⟨e.1.symm, e.2.symm⟩)]
    have : (decide (px % w = qx) && decide (py % h = qy)) = false := by
      simpa using h1
    rw [this, Bool.xor_false]

/-- A sequence of XORs makes of each pixel the parity of the points that fall on it. -/
theorem pixel_xorPoints {w h : Nat} (hw : 1 ≤ w) (hh : 1 ≤ h) {qx qy : Nat} (hx : qx < w)
    (hy : qy < h) (ps : List (Nat × Nat)) :
    ∀ {d : Framebuffer × Bool}, Framebuffer.wf w h d.1 →
      Framebuffer.pixel w h (xorPoints w h ps d).1 qx qy =
        (Framebuffer.pixel w h d.1 qx qy ^^ decide (hitsAt w h ps qx qy % 2 = 1)) := by
  induction ps with
  | nil => intro d _; simp [xorPoints, hitsAt]
  | cons p ps ih =>
    intro d hf
    have step : xorPoints w h (p :: ps) d = xorPoints w h ps (xorPixel w h p.1 p.2 d) := rfl
    rw [step, ih (xorPixel_wf hf p.1 p.2), pixel_xorPixel hf hw hh p.1 p.2 hx hy]
    simp only [hitsAt, List.countP_cons]
    by_cases hp : (decide (p.1 % w = qx) && decide (p.2 % h = qy)) = true
    · rw [hp, if_pos rfl, Bool.xor_assoc]
      congr 1
      rcases Nat.mod_two_eq_zero_or_one (ps.countP fun p => decide (p.1 % w = qx) && decide (p.2 % h = qy))
        with h0 | h0 <;> simp [Nat.add_mod, h0]
    · rw [if_neg hp, Nat.add_zero]
      simp only [Bool.not_eq_true] at hp
      rw [hp, Bool.xor_false]
      rfl

/-- The collision of a sequence of XORs: a point that falls on a lit pixel, or two that fall on one. -/
theorem flag_xorPoints {w h : Nat} (hw : 1 ≤ w) (hh : 1 ≤ h) (ps : List (Nat × Nat)) :
    ∀ {d : Framebuffer × Bool}, Framebuffer.wf w h d.1 →
      ((xorPoints w h ps d).2 = true ↔
        d.2 = true ∨ ∃ qx qy, qx < w ∧ qy < h ∧
          ((Framebuffer.pixel w h d.1 qx qy = true ∧ 1 ≤ hitsAt w h ps qx qy) ∨
            2 ≤ hitsAt w h ps qx qy)) := by
  induction ps with
  | nil => intro d _; simp [xorPoints, hitsAt]
  | cons p ps ih =>
    intro d hf
    have step : xorPoints w h (p :: ps) d = xorPoints w h ps (xorPixel w h p.1 p.2 d) := rfl
    rw [step, ih (xorPixel_wf hf p.1 p.2)]
    have hx := Nat.mod_lt p.1 hw
    have hy := Nat.mod_lt p.2 hh
    have hflag : (xorPixel w h p.1 p.2 d).2 =
        (d.2 || Framebuffer.pixel w h d.1 (p.1 % w) (p.2 % h)) := by
      simp [xorPixel, Framebuffer.pixel]
    have hcons : ∀ qx qy, hitsAt w h (p :: ps) qx qy =
        hitsAt w h ps qx qy + if p.1 % w = qx ∧ p.2 % h = qy then 1 else 0 := by
      intro qx qy
      simp [hitsAt, List.countP_cons]
    constructor
    · rintro (h1 | ⟨qx, qy, h1, h2, h3⟩)
      · rw [hflag, Bool.or_eq_true] at h1
        rcases h1 with h1 | h1
        · exact .inl h1
        · exact .inr ⟨p.1 % w, p.2 % h, hx, hy, .inl ⟨h1, by rw [hcons]; simp⟩⟩
      · refine .inr ⟨qx, qy, h1, h2, ?_⟩
        rw [pixel_xorPixel hf hw hh p.1 p.2 h1 h2] at h3
        rw [hcons]
        by_cases hp : p.1 % w = qx ∧ p.2 % h = qy
        · rw [if_pos hp]
          rcases h3 with ⟨_, h3⟩ | h3
          · exact .inr (by omega)
          · exact .inr (by omega)
        · have hb : (decide (p.1 % w = qx) && decide (p.2 % h = qy)) = false := by simpa using hp
          rw [if_neg hp, Nat.add_zero]
          rw [hb, Bool.xor_false] at h3
          exact h3
    · rintro (h1 | ⟨qx, qy, h1, h2, h3⟩)
      · exact .inl (by rw [hflag, h1]; rfl)
      · rw [hcons] at h3
        by_cases hp : p.1 % w = qx ∧ p.2 % h = qy
        · obtain ⟨rfl, rfl⟩ := hp
          rw [if_pos ⟨rfl, rfl⟩] at h3
          by_cases hl : Framebuffer.pixel w h d.1 (p.1 % w) (p.2 % h) = true
          · exact .inl (by rw [hflag, hl, Bool.or_true])
          · have h4 : 1 ≤ hitsAt w h ps (p.1 % w) (p.2 % h) := by
              rcases h3 with ⟨h3, _⟩ | h3
              · exact absurd h3 hl
              · omega
            refine .inr ⟨_, _, h1, h2, .inl ⟨?_, h4⟩⟩
            rw [pixel_xorPixel hf hw hh p.1 p.2 h1 h2]
            simp [hl]
        · have hb : (decide (p.1 % w = qx) && decide (p.2 % h = qy)) = false := by simpa using hp
          rw [if_neg hp, Nat.add_zero] at h3
          refine .inr ⟨qx, qy, h1, h2, ?_⟩
          rw [pixel_xorPixel hf hw hh p.1 p.2 h1 h2, hb, Bool.xor_false]
          exact h3

/-! ### The points of a sprite read from memory -/

theorem hitsAt_append (w h : Nat) (ps qs : List (Nat × Nat)) (qx qy : Nat) :
    hitsAt w h (ps ++ qs) qx qy = hitsAt w h ps qx qy + hitsAt w h qs qx qy := by
  simp [hitsAt, List.countP_append]

theorem hitsAt_rowPoints (w h px py : Nat) (row : Byte) (cols : List Nat) (qx qy : Nat) :
    hitsAt w h (rowPoints px py row cols) qx qy =
      cols.countP fun c => row.getLsbD (7 - c) && decide ((px + c) % w = qx) && decide (py % h = qy) := by
  induction cols with
  | nil => rfl
  | cons c cols ih =>
    rw [List.countP_cons, ← ih]
    by_cases hb : row.getLsbD (7 - c) = true
    · have hb' : spriteBit row c = true := hb
      simp [rowPoints, hitsAt, hb, hb', List.countP_cons]
    · have hb' : ¬ spriteBit row c = true := hb
      simp only [Bool.not_eq_true] at hb
      simp [rowPoints, hitsAt, hb, hb']

theorem hitsAt_spritePoints (w h px : Nat) (f : List Byte) (m : Memory) (qx qy : Nat) (n : Nat) :
    ∀ a py, hitsAt w h (spritePoints px py (Memory.readBytes f m a n)) qx qy =
      ((List.range n).map fun row => (List.range 8).countP fun c =>
        (Memory.read f m (a + row)).getLsbD (7 - c) && decide ((px + c) % w = qx) &&
          decide ((py + row) % h = qy)).sum := by
  induction n with
  | zero => intro a py; rfl
  | succ n ih =>
    intro a py
    rw [Memory.readBytes, spritePoints, hitsAt_append, ih, hitsAt_rowPoints,
      List.range_succ_eq_map (n := n), List.map_cons, List.sum_cons, List.map_map]
    congr 1
    congr 1
    apply List.map_congr_left
    intro row _
    have e1 : a + 1 + row = a + (row + 1) := by omega
    have e2 : py + 1 + row = py + (row + 1) := by omega
    simp only [Function.comp_apply, e1, e2]

/-- The points of a draw, counted as claims count them. -/
theorem hitsAt_sprite (s : State) (x y : RegIdx) (n qx qy : Nat) :
    hitsAt s.cfg.width s.cfg.height
        (spritePoints (s.getV x).toNat (s.getV y).toNat
          (Memory.readBytes s.cfg.font s.mem s.i.toNat n)) qx qy =
      spriteHits s x y n qx qy :=
  hitsAt_spritePoints _ _ _ _ _ _ _ _ _ _

end Sys2Proof.Machine
end

