-- ==== Sys2Proof/Laws/PerInstr.lean ====
section
/-! SUPPORT. For every instruction: its encoding selects its own row of the opcode map (R85) and the row
is one of the map's. -/

namespace Sys2Proof.Laws.EncodingRow

/-- The encoding of `i` selects the row of `i`, and that row stands in the opcode map. -/
def Statement (i : Instr) : Prop := i.row.selects (encode i) = true ∧ i.row ∈ opcodeMap

/-- A word selects a row of mask `0xF000` by its `op` field alone. -/
theorem selects_op (w p : Word) (h : w.toNat / 4096 * 4096 = p.toNat) :
    OpcodeRow.selects ⟨0xF000, p⟩ w = true := by
  simp only [OpcodeRow.selects, decide_eq_true_eq]
  exact BitVec.eq_of_toNat_eq ((and_opMask_toNat w).trans h)

/-- A word selects a row of mask `0xF00F` by its `op` and `n` fields. -/
theorem selects_op_n (w p : Word) (h : w.toNat / 4096 * 4096 + w.toNat % 16 = p.toNat) :
    OpcodeRow.selects ⟨0xF00F, p⟩ w = true := by
  simp only [OpcodeRow.selects, decide_eq_true_eq]
  exact BitVec.eq_of_toNat_eq ((and_opNMask_toNat w).trans h)

/-- A word selects a row of mask `0xF0FF` by its `op` and `nn` fields. -/
theorem selects_op_nn (w p : Word) (h : w.toNat / 4096 * 4096 + w.toNat % 256 = p.toNat) :
    OpcodeRow.selects ⟨0xF0FF, p⟩ w = true := by
  simp only [OpcodeRow.selects, decide_eq_true_eq]
  exact BitVec.eq_of_toNat_eq ((and_opNNMask_toNat w).trans h)

theorem cls : Statement (.cls) := by
  unfold Statement; decide

theorem ret : Statement (.ret) := by
  unfold Statement; decide

theorem jp (nnn : BitVec 12) : Statement (.jp nnn) := by
  have h_nnn := nnn.isLt
  refine ⟨selects_op _ _ ?_, by simp [Instr.row, opcodeMap]⟩
  rw [encode, packNNN_toNat]
  simp
  omega

theorem call (nnn : BitVec 12) : Statement (.call nnn) := by
  have h_nnn := nnn.isLt
  refine ⟨selects_op _ _ ?_, by simp [Instr.row, opcodeMap]⟩
  rw [encode, packNNN_toNat]
  simp
  omega

theorem seByte (x : RegIdx) (nn : Byte) : Statement (.seByte x nn) := by
  have h_x := x.isLt
  have h_nn := nn.isLt
  refine ⟨selects_op _ _ ?_, by simp [Instr.row, opcodeMap]⟩
  rw [encode, packXNN_toNat]
  simp
  omega

theorem sneByte (x : RegIdx) (nn : Byte) : Statement (.sneByte x nn) := by
  have h_x := x.isLt
  have h_nn := nn.isLt
  refine ⟨selects_op _ _ ?_, by simp [Instr.row, opcodeMap]⟩
  rw [encode, packXNN_toNat]
  simp
  omega

theorem seReg (x y : RegIdx) : Statement (.seReg x y) := by
  have h_x := x.isLt
  have h_y := y.isLt
  refine ⟨selects_op _ _ ?_, by simp [Instr.row, opcodeMap]⟩
  rw [encode, packXYN_toNat]
  simp
  omega

theorem ldByte (x : RegIdx) (nn : Byte) : Statement (.ldByte x nn) := by
  have h_x := x.isLt
  have h_nn := nn.isLt
  refine ⟨selects_op _ _ ?_, by simp [Instr.row, opcodeMap]⟩
  rw [encode, packXNN_toNat]
  simp
  omega

theorem addByte (x : RegIdx) (nn : Byte) : Statement (.addByte x nn) := by
  have h_x := x.isLt
  have h_nn := nn.isLt
  refine ⟨selects_op _ _ ?_, by simp [Instr.row, opcodeMap]⟩
  rw [encode, packXNN_toNat]
  simp
  omega

theorem ldReg (x y : RegIdx) : Statement (.ldReg x y) := by
  have h_x := x.isLt
  have h_y := y.isLt
  refine ⟨selects_op_n _ _ ?_, by simp [Instr.row, opcodeMap]⟩
  rw [encode, packXYN_toNat]
  simp
  omega

theorem orReg (x y : RegIdx) : Statement (.orReg x y) := by
  have h_x := x.isLt
  have h_y := y.isLt
  refine ⟨selects_op_n _ _ ?_, by simp [Instr.row, opcodeMap]⟩
  rw [encode, packXYN_toNat]
  simp
  omega

theorem andReg (x y : RegIdx) : Statement (.andReg x y) := by
  have h_x := x.isLt
  have h_y := y.isLt
  refine ⟨selects_op_n _ _ ?_, by simp [Instr.row, opcodeMap]⟩
  rw [encode, packXYN_toNat]
  simp
  omega

theorem xorReg (x y : RegIdx) : Statement (.xorReg x y) := by
  have h_x := x.isLt
  have h_y := y.isLt
  refine ⟨selects_op_n _ _ ?_, by simp [Instr.row, opcodeMap]⟩
  rw [encode, packXYN_toNat]
  simp
  omega

theorem addReg (x y : RegIdx) : Statement (.addReg x y) := by
  have h_x := x.isLt
  have h_y := y.isLt
  refine ⟨selects_op_n _ _ ?_, by simp [Instr.row, opcodeMap]⟩
  rw [encode, packXYN_toNat]
  simp
  omega

theorem subReg (x y : RegIdx) : Statement (.subReg x y) := by
  have h_x := x.isLt
  have h_y := y.isLt
  refine ⟨selects_op_n _ _ ?_, by simp [Instr.row, opcodeMap]⟩
  rw [encode, packXYN_toNat]
  simp
  omega

theorem shr (x y : RegIdx) : Statement (.shr x y) := by
  have h_x := x.isLt
  have h_y := y.isLt
  refine ⟨selects_op_n _ _ ?_, by simp [Instr.row, opcodeMap]⟩
  rw [encode, packXYN_toNat]
  simp
  omega

theorem subn (x y : RegIdx) : Statement (.subn x y) := by
  have h_x := x.isLt
  have h_y := y.isLt
  refine ⟨selects_op_n _ _ ?_, by simp [Instr.row, opcodeMap]⟩
  rw [encode, packXYN_toNat]
  simp
  omega

theorem shl (x y : RegIdx) : Statement (.shl x y) := by
  have h_x := x.isLt
  have h_y := y.isLt
  refine ⟨selects_op_n _ _ ?_, by simp [Instr.row, opcodeMap]⟩
  rw [encode, packXYN_toNat]
  simp
  omega

theorem sneReg (x y : RegIdx) : Statement (.sneReg x y) := by
  have h_x := x.isLt
  have h_y := y.isLt
  refine ⟨selects_op _ _ ?_, by simp [Instr.row, opcodeMap]⟩
  rw [encode, packXYN_toNat]
  simp
  omega

theorem ldI (nnn : BitVec 12) : Statement (.ldI nnn) := by
  have h_nnn := nnn.isLt
  refine ⟨selects_op _ _ ?_, by simp [Instr.row, opcodeMap]⟩
  rw [encode, packNNN_toNat]
  simp
  omega

theorem jpV0 (nnn : BitVec 12) : Statement (.jpV0 nnn) := by
  have h_nnn := nnn.isLt
  refine ⟨selects_op _ _ ?_, by simp [Instr.row, opcodeMap]⟩
  rw [encode, packNNN_toNat]
  simp
  omega

theorem rnd (x : RegIdx) (nn : Byte) : Statement (.rnd x nn) := by
  have h_x := x.isLt
  have h_nn := nn.isLt
  refine ⟨selects_op _ _ ?_, by simp [Instr.row, opcodeMap]⟩
  rw [encode, packXNN_toNat]
  simp
  omega

theorem drw (x y : RegIdx) (n : BitVec 4) : Statement (.drw x y n) := by
  have h_x := x.isLt
  have h_y := y.isLt
  have h_n := n.isLt
  refine ⟨selects_op _ _ ?_, by simp [Instr.row, opcodeMap]⟩
  rw [encode, packXYN_toNat]
  simp
  omega

theorem skp (x : RegIdx) : Statement (.skp x) := by
  have h_x := x.isLt
  refine ⟨selects_op_nn _ _ ?_, by simp [Instr.row, opcodeMap]⟩
  rw [encode, packXNN_toNat]
  simp
  omega

theorem sknp (x : RegIdx) : Statement (.sknp x) := by
  have h_x := x.isLt
  refine ⟨selects_op_nn _ _ ?_, by simp [Instr.row, opcodeMap]⟩
  rw [encode, packXNN_toNat]
  simp
  omega

theorem ldVxDT (x : RegIdx) : Statement (.ldVxDT x) := by
  have h_x := x.isLt
  refine ⟨selects_op_nn _ _ ?_, by simp [Instr.row, opcodeMap]⟩
  rw [encode, packXNN_toNat]
  simp
  omega

theorem ldVxK (x : RegIdx) : Statement (.ldVxK x) := by
  have h_x := x.isLt
  refine ⟨selects_op_nn _ _ ?_, by simp [Instr.row, opcodeMap]⟩
  rw [encode, packXNN_toNat]
  simp
  omega

theorem ldDTVx (x : RegIdx) : Statement (.ldDTVx x) := by
  have h_x := x.isLt
  refine ⟨selects_op_nn _ _ ?_, by simp [Instr.row, opcodeMap]⟩
  rw [encode, packXNN_toNat]
  simp
  omega

theorem ldSTVx (x : RegIdx) : Statement (.ldSTVx x) := by
  have h_x := x.isLt
  refine ⟨selects_op_nn _ _ ?_, by simp [Instr.row, opcodeMap]⟩
  rw [encode, packXNN_toNat]
  simp
  omega

theorem addI (x : RegIdx) : Statement (.addI x) := by
  have h_x := x.isLt
  refine ⟨selects_op_nn _ _ ?_, by simp [Instr.row, opcodeMap]⟩
  rw [encode, packXNN_toNat]
  simp
  omega

theorem ldF (x : RegIdx) : Statement (.ldF x) := by
  have h_x := x.isLt
  refine ⟨selects_op_nn _ _ ?_, by simp [Instr.row, opcodeMap]⟩
  rw [encode, packXNN_toNat]
  simp
  omega

theorem ldB (x : RegIdx) : Statement (.ldB x) := by
  have h_x := x.isLt
  refine ⟨selects_op_nn _ _ ?_, by simp [Instr.row, opcodeMap]⟩
  rw [encode, packXNN_toNat]
  simp
  omega

theorem storeRegs (x : RegIdx) : Statement (.storeRegs x) := by
  have h_x := x.isLt
  refine ⟨selects_op_nn _ _ ?_, by simp [Instr.row, opcodeMap]⟩
  rw [encode, packXNN_toNat]
  simp
  omega

theorem loadRegs (x : RegIdx) : Statement (.loadRegs x) := by
  have h_x := x.isLt
  refine ⟨selects_op_nn _ _ ?_, by simp [Instr.row, opcodeMap]⟩
  rw [encode, packXNN_toNat]
  simp
  omega

end Sys2Proof.Laws.EncodingRow
end

