-- ==== Sys2Proof/Tests/Slice0.lean ====
section
/-! SUPPORT. The model's own tests: words written out from R85, ill-formed terms that the checks refuse,
one-step vectors of 95_test_vectors.md (their names stand at each test), and for every statement with
hypotheses a concrete state and operands that meet them together. -/

namespace Sys2Proof.Tests

open Sys2Proof.Machine

/-! ## Helpers -/

/-- One field of the next state. -/
def next? {α : Type} (f : State → α) : Result → Option α
  | .next t => some (f t)
  | .fault _ => none
  | .refused _ => none

/-- The reason a call is refused. -/
def refusal? : Result → Option Refusal
  | .refused r => some r
  | .next _ => none
  | .fault _ => none

/-- The reset state with `PC` moved and an instruction word placed there. -/
def at' (pc : Word) (w : Nat) : State := (State.reset.setPC pc).withFetchWord 16 w

/-- The reset state with a stack of `n` return addresses `0x202`. -/
def deep (n : Nat) : State := State.reset.setStack (List.replicate n 0x202)

/-- The reset state with `I = 0x300` and two bytes there. -/
def sprite (a b : Byte) : State := ((State.reset.setI 0x300).writeByte 0x300 a).writeByte 0x301 b

/-- `V0`, `V1` and `VF` of a state. -/
def regs (v0 v1 flag : Byte) : State := ((State.reset.setV 0 v0).setV 1 v1).setV vf flag

/-- `V0` and `VF` after an instruction. -/
def zeroAndFlag (r : Result) : Option (Byte × Byte) := next? (fun t => (t.getV 0, t.getV vf)) r

/-! ## Decoding, by words written out from R85: op, x, y, n or op, x, nn or op, nnn -/

theorem test_decode_framebuffer :
    decode 0b0000_0000_1110_0000 = .ok .cls ∧ decode 0b1101_0100_0101_1010 = .ok (.drw 4 5 10) := by
  decide

theorem test_decode_control :
    decode 0b0000_0000_1110_1110 = .ok .ret ∧ decode 0b0001_1010_1011_1100 = .ok (.jp 0xABC) ∧
    decode 0b0010_0001_0010_0011 = .ok (.call 0x123) ∧
    decode 0b0011_0011_0000_0101 = .ok (.seByte 3 0x05) ∧
    decode 0b0100_0111_1001_0001 = .ok (.sneByte 7 0x91) ∧
    decode 0b0101_0001_0010_0000 = .ok (.seReg 1 2) ∧
    decode 0b1001_0001_0010_0000 = .ok (.sneReg 1 2) ∧
    decode 0b1011_1000_0000_0001 = .ok (.jpV0 0x801) := by
  decide

theorem test_decode_loads :
    decode 0b0110_1010_0101_1100 = .ok (.ldByte 10 0x5C) ∧
    decode 0b0111_0000_1000_0001 = .ok (.addByte 0 0x81) ∧
    decode 0b1000_0010_0001_0000 = .ok (.ldReg 2 1) ∧
    decode 0b1100_0011_0000_1111 = .ok (.rnd 3 0x0F) := by
  decide

theorem test_decode_arithmetic :
    decode 0b1000_0011_1100_0001 = .ok (.orReg 3 12) ∧
    decode 0b1000_0011_1100_0010 = .ok (.andReg 3 12) ∧
    decode 0b1000_0011_1100_0011 = .ok (.xorReg 3 12) ∧
    decode 0b1000_0011_1100_0100 = .ok (.addReg 3 12) ∧
    decode 0b1000_0011_1100_0101 = .ok (.subReg 3 12) ∧
    decode 0b1000_0011_1100_0110 = .ok (.shr 3 12) ∧
    decode 0b1000_0011_1100_0111 = .ok (.subn 3 12) ∧
    decode 0b1000_0011_1100_1110 = .ok (.shl 3 12) := by
  decide

theorem test_decode_index :
    decode 0b1010_0001_0010_0011 = .ok (.ldI 0x123) ∧
    decode 0b1111_0001_0001_1110 = .ok (.addI 1) ∧
    decode 0b1111_1010_0010_1001 = .ok (.ldF 10) ∧
    decode 0b1111_0011_0011_0011 = .ok (.ldB 3) ∧
    decode 0b1111_1000_0101_0101 = .ok (.storeRegs 8) ∧
    decode 0b1111_0010_0110_0101 = .ok (.loadRegs 2) := by
  decide

theorem test_decode_keypad :
    decode 0b1110_0001_1001_1110 = .ok (.skp 1) ∧ decode 0b1110_0001_1010_0001 = .ok (.sknp 1) ∧
    decode 0b1111_0101_0000_0111 = .ok (.ldVxDT 5) ∧ decode 0b1111_0101_0000_1010 = .ok (.ldVxK 5) ∧
    decode 0b1111_0010_0001_0101 = .ok (.ldDTVx 2) ∧
    decode 0b1111_0010_0001_1000 = .ok (.ldSTVx 2) := by
  decide

/-- V30-1 to V30-3 and V30-8 to V30-15: words of no row. -/
theorem test_decode_unknown :
    decode 0x0000 = .error (.unknownOpcode 0x0000) ∧ decode 0x00E1 = .error (.unknownOpcode 0x00E1) ∧
    decode 0x0123 = .error (.unknownOpcode 0x0123) ∧ decode 0x8008 = .error (.unknownOpcode 0x8008) ∧
    decode 0x800D = .error (.unknownOpcode 0x800D) ∧ decode 0x800F = .error (.unknownOpcode 0x800F) ∧
    decode 0xE000 = .error (.unknownOpcode 0xE000) ∧ decode 0xE09F = .error (.unknownOpcode 0xE09F) ∧
    decode 0xF000 = .error (.unknownOpcode 0xF000) ∧ decode 0xF0FF = .error (.unknownOpcode 0xF0FF) ∧
    decode 0xF01F = .error (.unknownOpcode 0xF01F) := by
  decide

/-- V30-4 to V30-7: ignored nibbles. -/
theorem test_decode_ignored :
    decode 0x01E0 = .ok .cls ∧ decode 0x0FEE = .ok .ret ∧ decode 0x5121 = .ok (.seReg 1 2) ∧
    decode 0x912F = .ok (.sneReg 1 2) := by
  decide

/-- The decoder over bytes: the rest is left, and fewer than two bytes are no instruction (R80). -/
theorem test_decode_bytes :
    decodeBytes [0x6A, 0x5C, 0x00] = .ok (.ldByte 10 0x5C, [0x00]) ∧
    decodeBytes [0x6A] = .error (.truncated 1) ∧ decodeBytes [] = .error (.truncated 0) := by
  decide

/-- No two rows of R85 have a word in common: two rows differ in a bit both of them fix. -/
theorem test_rows_disjoint :
    opcodeMap.Pairwise (fun p q => p.pattern &&& q.mask ≠ q.pattern &&& p.mask) ∧
    opcodeMap.length = 34 := by
  decide

/-- The host's numbering: bit 0 is the word's least significant bit, and the first byte holds its top. -/
theorem test_table_word :
    tableBytes 16 0x6A5C = [0x6A, 0x5C] ∧ decodeTableWord 16 0x6A5C = some (.ldByte 10 0x5C) ∧
    decodeTableWord 16 0x0000 = none := by
  decide

/-! ## Well-formedness: each check refuses an ill-formed term -/

/-- R262: a zero size. -/
theorem test_wf_sizes :
    (HostCall.construct 0 32).wf = false ∧ (HostCall.construct 64 0).wf = false ∧
    (HostCall.construct 1 1).wf = true := by
  decide

/-- R239: a key above 15. -/
theorem test_wf_keys :
    (HostCall.pressKey 16).wf = false ∧ (HostCall.releaseKey 16).wf = false ∧
    (HostCall.pressKey 15).wf = true := by
  decide

/-- R57, R262: parameters without a size or with a short font. -/
theorem test_wf_config :
    (Config.mk 0 32 defaultFont).wf = false ∧ (Config.mk 64 0 defaultFont).wf = false ∧
    (Config.mk 64 32 [0xF0]).wf = false ∧ canonicalConfig.wf = true := by
  decide

/-- Memory that lists a construction value, an address outside memory, or addresses that do not rise. -/
theorem test_wf_memory :
    ¬ Memory.wf defaultFont [(0x200, 0)] ∧ ¬ Memory.wf defaultFont [(0x1000, 1)] ∧
    ¬ Memory.wf defaultFont [(0x201, 1), (0x200, 1)] ∧ Memory.wf defaultFont State.reset.mem := by
  decide

/-! ## Reset and the first step -/

/-- V70-1. -/
theorem test_reset :
    State.reset.pc = 0x200 ∧ (List.range 5).map State.reset.readByte = [0xF0, 0x90, 0x90, 0x90, 0xF0] ∧
    (List.range 5).map (fun k => State.reset.readByte (0x4B + k)) = [0xF0, 0x80, 0xF0, 0x80, 0x80] ∧
    State.reset.readByte 0x50 = 0 ∧ State.reset.run = .running := by
  decide

/-- A placed word runs in the very next step, as V42-1 has it. -/
theorem test_withFetchWord :
    next? (fun t => (t.getV 10, t.pc)) (step (State.reset.withFetchWord 16 0x6A5C)) =
      some (0x5C, 0x202) := by
  decide

/-- V40-1 and V40-4: the last word of memory, and an odd `PC`. -/
theorem test_step_edges :
    next? (fun t => (t.getV 0, t.pc)) (step (at' 0xFFE 0x6011)) = some (0x11, 0x1000) ∧
    next? (fun t => (t.getV 10, t.pc)) (step (at' 0x201 0x6A55)) = some (0x55, 0x203) := by
  decide

/-- V40-2, V40-3, V30-1: failing steps and what they return. -/
theorem test_step_errors :
    stepReturn (State.reset.setPC 0x1000) = .err (.outOfRange 0x1000) ∧
    stepReturn (State.reset.setPC 0xFFF) = .err (.outOfRange 0xFFF) ∧
    stepReturn State.reset = .err (.unknownOpcode 0) ∧
    next? (fun t => (t.run, t.pc)) (step State.reset) = some (.faulted .unknownOpcode, 0x200) := by
  decide

/-- V40-5, V40-6. -/
theorem test_step_stopped :
    stepReturn (State.reset.setRun (.awaitKey 5)) = .ok false ∧
    stepReturn (State.reset.setRun (.faulted .unknownOpcode)) = .errAgain .unknownOpcode := by
  decide

/-! ## Control transfer -/

/-- V41-1, V41-2. -/
theorem test_jp : next? (·.pc) (exec (.jp 0xABC) State.reset) = some 0xABC := by decide

/-- V41-3, V41-4. -/
theorem test_call :
    next? (fun t => (t.stack, t.pc)) (exec (.call 0x210) (State.reset.setPC 0x204)) =
      some ([0x206], 0x210) ∧
    next? (fun t => (t.run, t.stack.length, t.pc)) (exec (.call 0x400) ((deep 16).setPC 0x300)) =
      some (.faulted .stackOverflow, 16, 0x300) := by
  decide

/-- V41-6, V41-7. -/
theorem test_ret :
    next? (fun t => (t.stack, t.pc)) (exec .ret ((State.reset.setStack [0x206]).setPC 0x30A)) =
      some ([], 0x206) ∧
    next? (fun t => (t.run, t.pc)) (exec .ret (State.reset.setPC 0x30A)) =
      some (.faulted .stackUnderflow, 0x30A) := by
  decide

/-- V41-8, V41-9. -/
theorem test_seByte :
    next? (·.pc) (exec (.seByte 3 5) ((State.reset.setPC 0x208).setV 3 5)) = some 0x20C ∧
    next? (·.pc) (exec (.seByte 3 5) ((State.reset.setPC 0x208).setV 3 6)) = some 0x20A := by
  decide

/-- V41-10, V41-11. -/
theorem test_sneByte :
    next? (·.pc) (exec (.sneByte 0 2) (regs 1 0 0)) = some 0x204 ∧
    next? (·.pc) (exec (.sneByte 0 2) (regs 2 0 0)) = some 0x202 := by
  decide

/-- V41-12, V41-14. -/
theorem test_seReg :
    next? (·.pc) (exec (.seReg 1 1) (regs 0 9 0)) = some 0x204 ∧
    next? (·.pc) (exec (.seReg 15 0) (regs 1 0 1)) = some 0x204 := by
  decide

/-- V41-13, V30-7. -/
theorem test_sneReg :
    next? (·.pc) (exec (.sneReg 1 1) (regs 0 9 0)) = some 0x202 ∧
    next? (·.pc) (exec (.sneReg 1 2) ((State.reset.setV 1 1).setV 2 2)) = some 0x204 := by
  decide

/-- V41-15, V41-17. -/
theorem test_jpV0 :
    next? (·.pc) (exec (.jpV0 0x300) (regs 4 0 0)) = some 0x304 ∧
    next? (·.pc) (exec (.jpV0 0xFFF) (regs 0xFF 0 0)) = some 0x10FE := by
  decide

/-! ## Loads and arithmetic: `V0` and `VF` -/

/-- V42-1. -/
theorem test_ldByte : next? (·.getV 10) (exec (.ldByte 10 0x5C) State.reset) = some 0x5C := by decide

/-- V42-2, V42-3. -/
theorem test_addByte :
    zeroAndFlag (exec (.addByte 0 1) (regs 0xFF 0 0x55)) = some (0x00, 0x55) ∧
    zeroAndFlag (exec (.addByte 15 1) (regs 0 0 0xFF)) = some (0x00, 0x00) := by
  decide

/-- V42-4. -/
theorem test_ldReg : zeroAndFlag (exec (.ldReg 0 1) (regs 0 0x9A 0)) = some (0x9A, 0) := by decide

/-- V42-5. -/
theorem test_or : zeroAndFlag (exec (.orReg 0 1) (regs 0x0F 0xF0 0x77)) = some (0xFF, 0x77) := by decide

/-- V42-6. -/
theorem test_and : zeroAndFlag (exec (.andReg 0 1) (regs 0x3C 0x0F 0x77)) = some (0x0C, 0x77) := by decide

/-- V42-7, V42-8. -/
theorem test_xor :
    zeroAndFlag (exec (.xorReg 0 1) (regs 0xFF 0x0F 0)) = some (0xF0, 0) ∧
    zeroAndFlag (exec (.xorReg 0 0) (regs 0xA5 0 0)) = some (0x00, 0) := by
  decide

/-- V42-9 to V42-11. -/
theorem test_addReg :
    zeroAndFlag (exec (.addReg 0 1) (regs 0xFF 0x01 0)) = some (0x00, 0x01) ∧
    zeroAndFlag (exec (.addReg 0 1) (regs 0x7F 0x01 9)) = some (0x80, 0x00) ∧
    zeroAndFlag (exec (.addReg 15 0) (regs 0x10 0 0xF5)) = some (0x10, 0x01) := by
  decide

/-- V42-14 to V42-16. -/
theorem test_subReg :
    zeroAndFlag (exec (.subReg 0 1) (regs 0x42 0x42 0)) = some (0x00, 0x01) ∧
    zeroAndFlag (exec (.subReg 0 1) (regs 0x00 0x01 9)) = some (0xFF, 0x00) ∧
    zeroAndFlag (exec (.subReg 15 0) (regs 0x02 0 0x01)) = some (0x02, 0x00) := by
  decide

/-- V42-20, V42-22, V42-23. -/
theorem test_shr :
    zeroAndFlag (exec (.shr 0 1) (regs 0xAA 0x04 9)) = some (0x02, 0x00) ∧
    zeroAndFlag (exec (.shr 0 1) (regs 0 0xFF 0)) = some (0x7F, 0x01) ∧
    zeroAndFlag (exec (.shr 15 1) (regs 0 0x05 0)) = some (0x00, 0x02) := by
  decide

/-- V42-17, V42-18, V42-19; S6 with the value of the opcode table. -/
theorem test_subn :
    zeroAndFlag (exec (.subn 0 1) (regs 0x01 0x00 9)) = some (0xFF, 0x00) ∧
    zeroAndFlag (exec (.subn 0 1) (regs 0x05 0x0A 0)) = some (0x05, 0x01) ∧
    zeroAndFlag (exec (.subn 0 0) (regs 0x33 0 0)) = some (0x00, 0x01) := by
  decide

/-- V42-24 to V42-26. -/
theorem test_shl :
    zeroAndFlag (exec (.shl 0 1) (regs 0 0x80 0)) = some (0x00, 0x01) ∧
    zeroAndFlag (exec (.shl 0 1) (regs 0 0x7F 9)) = some (0xFE, 0x00) ∧
    zeroAndFlag (exec (.shl 15 1) (regs 0 0x81 0)) = some (0x00, 0x02) := by
  decide

/-- V42-29: any draw masked by 0. -/
theorem test_rnd_zero : next? (·.getV 3) (exec (.rnd 3 0) State.reset) = some 0 := by
  have h : Config.randomByte 0 &&& 0#8 = 0 := BitVec.and_zero
  exact congrArg some h

/-- V42-30: any draw masked by `0xFF` is the draw; the next draw is another one. -/
theorem test_rnd_all :
    next? (fun t => (t.getV 3, t.draws)) (exec (.rnd 3 0xFF) State.reset) =
      some (Config.randomByte 0, 1) := by
  have h : Config.randomByte 0 &&& 0xFF#8 = Config.randomByte 0 := BitVec.and_allOnes
  exact congrArg (fun b => some (b, 1)) h

/-! ## Index register and memory -/

/-- V43-1. -/
theorem test_ldI : next? (·.i) (exec (.ldI 0x123) State.reset) = some 0x123 := by decide

/-- V43-2, V43-4. -/
theorem test_addI :
    next? (fun t => (t.i, t.getV vf)) (exec (.addI 1) ((regs 0 5 0x66).setI 0x300)) =
      some (0x305, 0x66) ∧
    next? (·.i) (exec (.addI 0) ((regs 1 0 0).setI 0xFFFF)) = some 0 := by
  decide

/-- V43-6, V43-8. -/
theorem test_ldF :
    next? (·.i) (exec (.ldF 0) (regs 0x0F 0 0)) = some 0x04B ∧
    next? (·.i) (exec (.ldF 0) (regs 0xFF 0 0)) = some 0x4FB := by
  decide

/-- V43-12, V43-13. -/
theorem test_ldB :
    next? (fun t => [t.readByte 0xFFD, t.readByte 0xFFE, t.readByte 0xFFF])
      (exec (.ldB 0) ((regs 0x2A 0 0).setI 0xFFD)) = some [0, 4, 2] ∧
    next? (fun t => (t.run, t.mem)) (exec (.ldB 0) ((regs 0x2A 0 0).setI 0xFFE)) =
      some (.faulted .outOfRange, []) := by
  decide

/-- V43-15, V43-16. -/
theorem test_storeRegs :
    next? (fun t => (t.mem, t.i))
      (exec (.storeRegs 3) ((((regs 0x11 0x22 0).setV 2 0x33).setV 3 0x44).setI 0xFFE)) =
      some ([(0xFFE, 0x11), (0xFFF, 0x22)], 0x1000) ∧
    next? (fun t => (t.mem, t.i)) (exec (.storeRegs 3) ((regs 1 2 3).setI 0x1000)) =
      some ([], 0x1000) := by
  decide

/-- V43-18. -/
theorem test_loadRegs :
    next? (fun t => ([t.getV 0, t.getV 1, t.getV 2, t.getV 3], t.i))
      (exec (.loadRegs 3)
        (((((State.reset.setV 2 0x77).setV 3 0x77).setI 0xFFE).writeByte 0xFFE 0xAA).writeByte 0xFFF 0xBB)) =
      some ([0xAA, 0xBB, 0x77, 0x77], 0x1000) := by
  decide

/-! ## Framebuffer -/

/-- V44-12. -/
theorem test_cls :
    next? (fun t => t.pixel 3 2) (exec .cls (State.reset.setPixel 3 2 true)) = some false := by
  decide

/-- V44-3: the collision of the first column stays set. -/
theorem test_drw_collision :
    next? (fun t => (t.pixel 0 0, t.pixel 1 0, t.getV vf))
      (exec (.drw 0 1 1) ((sprite 0xC0 0).setPixel 0 0 true)) = some (false, true, 1) := by
  decide

/-- V44-4: the wrap at the corner. -/
theorem test_drw_wrap :
    next? (fun t => [t.pixel 62 31, t.pixel 63 31, t.pixel 62 0, t.pixel 5 0, t.pixel 0 0])
      (exec (.drw 0 1 2) (((sprite 0xC0 0x81).setV 0 0x3E).setV 1 0x1F)) =
      some [true, true, true, true, false] := by
  decide

/-! ## Keypad and timers -/

/-- V45-2, V45-3. -/
theorem test_skp :
    next? (·.pc) (exec (.skp 1) (regs 0 0x0A 0)) = some 0x202 ∧
    next? (·.pc) (exec (.skp 1) ((regs 0 0x13 0).setKey 3 true)) = some 0x204 := by
  decide

/-- V45-4. -/
theorem test_sknp : next? (·.pc) (exec (.sknp 1) (regs 0 0x13 0)) = some 0x204 := by decide

/-- V45-5. -/
theorem test_ldVxDT : next? (·.getV 5) (exec (.ldVxDT 5) (State.reset.setDT 0x3C)) = some 0x3C := by decide

/-- V45-7. -/
theorem test_ldDTVx : next? (·.dt) (exec (.ldDTVx 2) (State.reset.setDT 0x10)) = some 0 := by decide

/-- V45-8. -/
theorem test_ldSTVx :
    next? (fun t => (t.st, t.dt)) (exec (.ldSTVx 2) (State.reset.setV 2 0x10)) = some (0x10, 0) := by
  decide

/-- V45-9, V45-10: a held key does not resolve the wait. -/
theorem test_ldVxK :
    next? (fun t => (t.run, t.pc)) (exec (.ldVxK 5) (State.reset.setKey 3 true)) =
      some (.awaitKey 5, 0x202) := by
  decide

/-- V45-9, V60-5, V60-8; what the refused call gives back is the model's choice (log 18). -/
theorem test_pressKey :
    next? (fun t => (t.getV 5, t.run, t.isKeyPressed 3))
      (pressKey 3 (State.reset.setRun (.awaitKey 5))) = some (3, .running, true) ∧
    next? (fun t => (t.v == State.reset.v, t.isKeyPressed 4)) (pressKey 4 State.reset) =
      some (true, true) ∧
    refusal? (pressKey 16 State.reset) = some (.illegalKey 16) ∧
    hostAnswer (.pressKey 16) State.reset = .refused (.illegalKey 16) ∧
    hostAnswer (.pressKey 15) State.reset = .done := by
  decide

/-- V60-6, V60-7. -/
theorem test_releaseKey :
    next? (fun t => (t.isKeyPressed 4, t.run))
      (releaseKey 4 ((State.reset.setKey 4 true).setRun (.awaitKey 2))) =
      some (false, .awaitKey 2) := by
  decide

/-- V60-1, V60-4. -/
theorem test_tick :
    (tick (State.reset.setDT 1)).dt = 0 ∧ (tick (State.reset.setDT 1)).st = 0 ∧
    (tick ((State.reset.setDT 5).setRun (.faulted .stackUnderflow))).dt = 4 := by
  decide

/-- V60-10, V60-11. -/
theorem test_debug :
    debugRead State.reset (.register 16) = .failed (.invalidRegister 16) ∧
    debugRead State.reset (.memory 0x1000) = .failed (.outOfRange 0x1000) ∧
    debugRead ((State.reset.setDT 3).setST 9) .delayTimer = .byte 3 ∧
    debugRead ((State.reset.setDT 3).setST 9) .soundTimer = .byte 9 := by
  decide

/-- V70-3, V70-5, V70-2. -/
theorem test_load :
    next? (·.mem) (hostCall (.loadProgram []) State.reset) = some [] ∧
    next? (·.mem) (hostCall (.loadProgram [0x12]) State.reset) = some [(0x200, 0x12)] ∧
    refusal? (hostCall (.construct 0 32) State.reset) = some (.illegalSize 0 32) := by
  decide

/-! ## Witnesses: for every statement with hypotheses, inputs that meet them together, at the boundary of
each clause -/

/-- A placed state meets the invariant. -/
theorem inv_at' : (at' 0x200 0x6A5C).Inv :=
  ⟨by decide, by decide, Framebuffer.blank_wf 64 32, by decide, fun _ h => absurd h List.not_mem_nil,
    by decide, by decide⟩

theorem witness_DecodeEncodeRoundTrip : (Instr.drw 4 5 10).wf = true := by decide

theorem witness_DecoderFollowsTheOpcodeMap :
    decode 0x8237 = .ok (.subn 2 3) ∧ ∀ r ∈ opcodeMap, 0x0000 &&& r.mask ≠ r.pattern := by
  decide

theorem witness_OperandsAreTheFieldsOfTheWord : decode 0xD45A = .ok (.drw 4 5 10) := by decide

/-- One word of each of the four groups of R86. -/
theorem witness_UnknownWordsRaiseUnknownOpcode :
    (at' 0x200 0x00E1).run = .running ∧ fetch (at' 0x200 0x00E1) = .ok 0x00E1 ∧
    UnknownWord 0x00E1 ∧ UnknownWord 0x800D ∧ UnknownWord 0xE000 ∧ UnknownWord 0xF0FF :=
  ⟨by decide, rfl, .inl (by decide), .inr (.inl (by decide)), .inr (.inr (.inl (by decide))),
    .inr (.inr (.inr (by decide)))⟩

theorem witness_StepRunsTheDecodedInstruction :
    (at' 0xFFE 0x6011).run = .running ∧ (at' 0xFFE 0x6011).pc.toNat ≤ 0xFFE ∧
    (Instr.ldByte 0 0x11).wf = true ∧
    decodeBytes [(at' 0xFFE 0x6011).readByte 0xFFE, (at' 0xFFE 0x6011).readByte 0xFFF] =
      .ok (.ldByte 0 0x11, []) := by
  decide

theorem witness_FetchIsBigEndianAndBounded :
    (at' 0xFFE 0x6011).pc.toNat ≤ 0xFFE ∧ 0xFFF ≤ (State.reset.setPC 0xFFF).pc.toNat ∧
    (State.reset.setPC 0xFFF).run = .running := by
  decide

theorem witness_FailedStepChangesOnlyTheRunState :
    stepReturn (State.reset.setPC 0xFFF) = .err (.outOfRange 0xFFF) := by
  decide

theorem witness_FaultIsStickyUntilConstruction :
    (State.reset.setRun (.faulted .stackOverflow)).run = .faulted .stackOverflow ∧
    hostCall .tick (State.reset.setRun (.faulted .stackOverflow)) =
      .next (tick (State.reset.setRun (.faulted .stackOverflow))) :=
  ⟨rfl, rfl⟩

theorem witness_KeyWaitIsEnteredByLdVxKAndLeftByPressKey :
    exec (.ldVxK 5) State.reset = .next (State.reset.setRun (.awaitKey 5)).advance ∧
    State.reset.run = .running ∧ (State.reset.setRun (.awaitKey 5)).advance.run = .awaitKey 5 ∧
    hostCall .tick (State.reset.setRun (.awaitKey 5)) =
      .next (tick (State.reset.setRun (.awaitKey 5))) :=
  ⟨rfl, rfl, rfl, rfl⟩

/-- The host call that enters the wait. -/
theorem witness_KeyWaitIsEntered_by_a_call :
    next? (·.run) (hostCall .step (at' 0x200 0xF50A)) = some (.awaitKey 5) ∧
    (at' 0x200 0xF50A).run ≠ .awaitKey 5 := by
  decide

theorem witness_NextPCOfEveryClass :
    (at' 0xFFE 0x3000).pc.toNat ≤ 0xFFE ∧ raises (.seByte 0 0) (at' 0xFFE 0x3000) = none ∧
    next? (·.pc) (exec (.seByte 0 0) (at' 0xFFE 0x3000)) = some 0x1002 := by
  decide

/-- Each of the six errors of a step, at its boundary. -/
theorem witness_StepErrorsExactlyWhere :
    stepReturn (State.reset.setPC 0xFFF) = .err (.outOfRange 0xFFF) ∧
    stepReturn (at' 0x200 0x00E1) = .err (.unknownOpcode 0x00E1) ∧
    stepReturn (at' 0x200 0x00EE) = .err (.stackUnderflow 0x200) ∧
    stepReturn ((at' 0x200 0x2400).setStack (List.replicate 16 0)) = .err (.stackOverflow 0x200) ∧
    stepReturn ((at' 0x200 0xD012).setI 0xFFF) = .err (.outOfRange 0xFFF) ∧
    stepReturn ((at' 0x200 0xF033).setI 0xFFE) = .err (.outOfRange 0xFFE) := by
  decide

/-- Just inside each bound a step raises nothing. -/
theorem witness_StepErrorsExactlyWhere_inside :
    stepReturn ((at' 0x200 0x2400).setStack (List.replicate 15 0)) = .ok true ∧
    stepReturn ((at' 0x200 0xD011).setI 0xFFF) = .ok true ∧
    stepReturn ((at' 0x200 0xD010).setI 0x1000) = .ok true ∧
    stepReturn ((at' 0x200 0xF033).setI 0xFFD) = .ok true := by
  decide

theorem witness_RetPopsTheLastEntry :
    (State.reset.setStack [0x206, 0x1000]).stack = [0x206] ++ [0x1000] ∧
    (State.reset.setStack [0x206, 0x1000]).Inv ∧ State.reset.stack = [] :=
  ⟨rfl, ⟨by decide, by decide, Framebuffer.blank_wf 64 32, by decide,
    by show ∀ a ∈ [0x206#16, 0x1000#16], a.toNat ≤ 0x1000; simp, by decide, by decide⟩, rfl⟩

theorem witness_JpSetsPCToTheAddress :
    (0x200 : BitVec 12).toNat = State.reset.pc.toNat ∧ (0xFFF : BitVec 12) = 0xFFF := by
  decide

theorem witness_CallPushesTheReturnAddress :
    (deep 15).stack.length < 16 ∧ 16 ≤ (deep 16).stack.length := by
  decide

theorem witness_CallThenRetReturnsPastTheCall : (deep 15).stack.length < 16 := by decide

theorem witness_SkipsOnARegister : (15 : RegIdx) = 15 ∧ (regs 1 0 1).getV 15 = (regs 1 0 1).getV 0 := by
  decide

/-- The least target whose fetch fails. -/
theorem witness_JpV0AddsV0 :
    0xFFF ≤ (0xF00 : BitVec 12).toNat + ((regs 0xFF 0 0).getV 0).toNat := by
  decide

theorem witness_same_register : (0 : RegIdx) = 0 ∧ (vf : RegIdx) = vf := ⟨rfl, rfl⟩

/-- For the five statements on a flag and a result (R147 to R151). -/
theorem witness_flag_apart : (14 : RegIdx) ≠ vf := by decide

/-- For the masks of `RND` that are named. -/
theorem witness_RndMasksOneDraw : (0x00 : Byte) = 0x00 ∧ (0xFF : Byte) = 0xFF := ⟨rfl, rfl⟩

theorem witness_LdBStoresTheDecimalDigits :
    Memory.wf State.reset.cfg.font State.reset.mem ∧ (State.reset.setI 0xFFD).i.toNat + 3 ≤ 4096 ∧
    4096 < (State.reset.setI 0xFFE).i.toNat + 3 := by
  decide

/-- The last register inside memory and the first one outside, and an index past memory. -/
theorem witness_StoreRegsStoresUpToTheBound :
    Memory.wf (State.reset.setI 0xFFE).cfg.font (State.reset.setI 0xFFE).mem ∧
    (1 : RegIdx) ≤ 3 ∧ (State.reset.setI 0xFFE).i.toNat + (1 : RegIdx).val ≤ 0xFFF ∧
    ¬ (State.reset.setI 0xFFE).i.toNat + (2 : RegIdx).val ≤ 0xFFF ∧
    0xFFF < (State.reset.setI 0x1000).i.toNat := by
  decide

theorem witness_LoadRegsLoadsUpToTheBound :
    (1 : RegIdx) ≤ 3 ∧ (State.reset.setI 0xFFE).i.toNat + (1 : RegIdx).val ≤ 0xFFF ∧
    ¬ ((2 : RegIdx) ≤ 3 ∧ (State.reset.setI 0xFFE).i.toNat + (2 : RegIdx).val ≤ 0xFFF) ∧
    0xFFF < (State.reset.setI 0x1000).i.toNat := by
  decide

theorem witness_StoredRegistersLoadBack :
    Memory.wf (State.reset.setI 0xFFE).cfg.font (State.reset.setI 0xFFE).mem ∧ (1 : RegIdx) ≤ 15 ∧
    (State.reset.setI 0xFFE).i.toNat + (1 : RegIdx).val ≤ 0xFFF := by
  decide

theorem witness_PixelsWrapModuloTheScreen :
    State.reset.cfg.wf = true ∧
    Framebuffer.wf State.reset.cfg.width State.reset.cfg.height State.reset.fb := by
  decide

/-- For the two statements on a draw inside memory: the last sprite of five rows. -/
theorem witness_draw_inside :
    (State.reset.setI 0xFFB).cfg.wf = true ∧
    Framebuffer.wf (State.reset.setI 0xFFB).cfg.width (State.reset.setI 0xFFB).cfg.height
      (State.reset.setI 0xFFB).fb ∧
    (State.reset.setI 0xFFB).i.toNat + (5 : BitVec 4).toNat ≤ 4096 := by
  decide

theorem witness_DrwOutsideMemoryDrawsNothing :
    4096 < (State.reset.setI 0xFFC).i.toNat + (5 : BitVec 4).toNat ∧ (0 : BitVec 4) = 0 ∧
    (State.reset.setI 0x1000).i.toNat ≤ 4096 ∧
    4096 < (State.reset.setI 0x1001).i.toNat + (0 : BitVec 4).toNat := by
  decide

theorem witness_DrawingTwiceRestoresTheScreen :
    (State.reset.setI 0xFFB).cfg.wf = true ∧
    Framebuffer.wf (State.reset.setI 0xFFB).cfg.width (State.reset.setI 0xFFB).cfg.height
      (State.reset.setI 0xFFB).fb ∧
    (State.reset.setI 0xFFB).i.toNat + (5 : BitVec 4).toNat ≤ 4096 ∧ (0 : RegIdx) ≠ vf ∧
    (14 : RegIdx) ≠ vf := by
  decide

theorem witness_KeySkipsReadTheKeypad : (3 : Fin 16).val = ((regs 0 0x13 0).getV 1).toNat % 16 := by
  decide

theorem witness_BlockingKeyReadWaitsForAPress : 15 < 16 := by decide

/-- A waiting and a running block, for the two cases. -/
theorem witness_PressKeySetsItsFlagAndResolvesAWait :
    (State.reset.setRun (.awaitKey 2)).run = .awaitKey 2 ∧ ∀ r, State.reset.run ≠ .awaitKey r :=
  ⟨rfl, fun _ h => by cases h⟩

theorem witness_LoadIsAtomic :
    Memory.wf State.reset.cfg.font State.reset.mem ∧ 4096 < 0xFFF + ([1, 2] : List Byte).length ∧
    0xFFF + ([1] : List Byte).length ≤ 4096 := by
  decide

/-- The largest program and the least one that is too large. -/
theorem witness_LoadIsAtomic_program :
    (List.replicate 3584 (1 : Byte)).length ≤ 3584 ∧ 3584 < (List.replicate 3585 (1 : Byte)).length := by
  rw [List.length_replicate, List.length_replicate]
  decide

theorem witness_AccessesAreBoundedAndPokedBytesReadBack :
    Memory.wf State.reset.cfg.font State.reset.mem ∧ 0xFFF ≤ 0xFFF ∧ 0xFFF < 0x1000 ∧ 1 ≤ 1 := by
  decide

theorem witness_ConstructionValues : 1 ≤ 1 ∧ 79 < 80 ∧ 80 ≤ 80 := by decide

theorem witness_EntryPointAndGlyphAddresses :
    1 ≤ 64 ∧ 1 ≤ 32 ∧ State.reset.cfg.font.length = 80 ∧ ([0x12] : List Byte).length ≤ 3584 ∧
    15 < 16 ∧ 4 < 5 := by
  decide

theorem witness_ConstructionMeetsTheInvariant : (Config.mk 1 1 defaultFont).wf = true := by decide

theorem witness_StepKeepsTheInvariant :
    (at' 0x200 0x6A5C).Inv ∧ (next? (·.pc) (step (at' 0x200 0x6A5C))) = some 0x202 :=
  ⟨inv_at', by decide⟩

theorem witness_EveryInterleavingKeepsTheInvariant :
    (at' 0x200 0x6A5C).Inv ∧
    next? (·.pc) (hostCalls [.pressKey 3, .step, .tick] (at' 0x200 0x6A5C)) = some 0x202 :=
  ⟨inv_at', by decide⟩

theorem witness_OnlyIllegalInputsAreRefused :
    15 < 16 ∧ ((HostCall.construct 0 32).wf = false) ∧ (HostCall.pressKey 15).wf = true := by
  decide

theorem witness_DebugReadsChangeNothing : 15 < 16 ∧ 0xFFF ≤ 0xFFF ∧ 0xFFF < 0x1000 := by decide

theorem witness_RunStopsAtZeroAndWaitsForKeys :
    (State.reset.setPC 0xFFE).run = .running ∧ (State.reset.setPC 0xFFE).pc.toNat ≤ 0xFFE ∧
    (State.reset.setPC 0xFFE).readByte 0xFFE = 0 ∧ (State.reset.setPC 0xFFE).readByte 0xFFF = 0 ∧
    (State.reset.setRun (.awaitKey 3)).run = .awaitKey 3 := by
  decide

/-- A word that is not zero and an unset `stop_at_zero`, with each of the three returns of the step. -/
theorem witness_RunStopsAtZeroAndWaitsForKeys_goes_on :
    ¬ ((at' 0x200 0x6001).run = .running ∧ (at' 0x200 0x6001).pc.toNat ≤ 0xFFE ∧
      (at' 0x200 0x6001).readByte 0x200 = 0 ∧ (at' 0x200 0x6001).readByte 0x201 = 0) ∧
    stepReturn (at' 0x200 0x6001) = .ok true ∧ next? (·.pc) (step (at' 0x200 0x6001)) = some 0x202 ∧
    stepReturn State.reset = .err (.unknownOpcode 0) ∧
    stepReturn (State.reset.setRun (.faulted .stackOverflow)) = .errAgain .stackOverflow := by
  decide

/-- Each piece of state does change under an instruction that may write it. -/
theorem witness_WritersOfEveryPieceOfState :
    next? (·.getV 0) (exec (.ldByte 0 1) State.reset) = some 1 ∧
    next? (·.i) (exec (.ldI 1) State.reset) = some 1 ∧
    next? (·.dt) (exec (.ldDTVx 0) (regs 1 0 0)) = some 1 ∧
    next? (·.st) (exec (.ldSTVx 0) (regs 1 0 0)) = some 1 ∧
    next? (·.stack) (exec (.call 0) State.reset) = some [0x202] ∧
    next? (·.run) (exec (.ldVxK 0) State.reset) = some (.awaitKey 0) ∧
    next? (fun t => t.pixel 0 0) (exec (.drw 0 1 1) (sprite 0x80 0)) = some true ∧
    next? (·.mem) (exec (.storeRegs 0) ((regs 1 0 0).setI 0x300)) = some [(0x300, 1)] ∧
    next? (·.draws) (exec (.rnd 0 0) State.reset) = some 1 := by
  decide

end Sys2Proof.Tests
end

section
/-! Proofs of the family `10_state.md`: the screen's pixels (R36, R37). -/

namespace Sys2Proof

/-- Well-formed parameters name a screen of at least one pixel each way (R8, R260). -/
theorem Config.one_le_size_of_wf {c : Config} (hc : c.wf = true) : 1 ≤ c.width ∧ 1 ≤ c.height := by
  simp only [Config.wf, Bool.and_eq_true, decide_eq_true_eq] at hc
  exact hc.left

end Sys2Proof

namespace Sys2Proof.Machine

/-- A pixel is read at its coordinates reduced modulo the screen's size (R37). -/
theorem State.pixel_mod (s : State) (px py : Nat) :
    s.pixel (px % s.cfg.width) (py % s.cfg.height) = s.pixel px py := by
  simp only [State.pixel, Framebuffer.pixel, Nat.mod_mod]

/-- A pixel read after a pixel write, in a state whose parameters and framebuffer meet the invariant. -/
theorem State.pixel_setPixel {s : State} (hc : s.cfg.wf = true)
    (hf : Framebuffer.wf s.cfg.width s.cfg.height s.fb) (px py qx qy : Nat) (on : Bool) :
    (s.setPixel px py on).pixel qx qy =
      if qx % s.cfg.width = px % s.cfg.width ∧ qy % s.cfg.height = py % s.cfg.height then on
      else s.pixel qx qy := by
  obtain ⟨hw, hh⟩ := Config.one_le_size_of_wf hc
  exact Framebuffer.pixel_setPixel hf hw hh px py qx qy on

/-- Settles O37: the wrap is idempotent, and a write to a reduced coordinate changes that pixel alone. -/
theorem pixelsWrapModuloTheScreen : Obligations.PixelsWrapModuloTheScreen := by
  intro s px py qx qy on hc hf
  exact ⟨(s.pixel_mod px py).symm, State.pixel_setPixel hc hf px py qx qy on⟩

end Sys2Proof.Machine
end

section
/-! Proofs of the family `20_memory.md`: the fetch (R55, R101). -/

namespace Sys2Proof.Machine

/-- Where both bytes exist the fetch is the word at `PC` (R55). -/
theorem fetch_of_le {s : State} (h : s.pc.toNat ≤ 0xFFE) :
    fetch s = .ok (wordOfBytes (s.readByte s.pc.toNat) (s.readByte (s.pc.toNat + 1))) := by
  obtain ⟨-, hf⟩ | ⟨hge, -⟩ := fetch_cases s
  · exact hf
  · omega

/-- Where the second byte is outside memory the fetch fails with `PC` (R55, R101). -/
theorem fetch_of_ge {s : State} (h : 0xFFF ≤ s.pc.toNat) :
    fetch s = .error (.outOfRange s.pc.toNat) := by
  obtain ⟨hle, -⟩ | ⟨-, hf⟩ := fetch_cases s
  · omega
  · exact hf

/-- A failing fetch is never decoded (R226). -/
theorem fetchInstr_of_fetch_error {s : State} {e : CoreError} (h : fetch s = .error e) :
    fetchInstr s = .error e := by
  simp only [fetchInstr, h]

/-- A running step without an instruction to execute takes the error (R105). -/
theorem step_of_fetchInstr_error {s : State} {e : CoreError} (hr : s.run = .running)
    (h : fetchInstr s = .error e) : step s = raise e s := by
  simp only [step, hr, h]

/-- A running step without an instruction to execute returns the error (R107). -/
theorem stepReturn_of_fetchInstr_error {s : State} {e : CoreError} (hr : s.run = .running)
    (h : fetchInstr s = .error e) : stepReturn s = .err e := by
  simp only [stepReturn, hr, h]

/-- Settles O8: the two cases of the fetch, and a failing fetch reaches `raise`, which writes the run
state alone. -/
theorem fetchIsBigEndianAndBounded : Obligations.FetchIsBigEndianAndBounded := by
  intro s
  refine ⟨fun hle => ⟨_, fetch_of_le hle, ?_⟩, fun hge => ⟨fetch_of_ge hge, fun hr => ?_⟩⟩
  · rw [wordOfBytes_toNat, Nat.mul_comm]
  · have hi := fetchInstr_of_fetch_error (fetch_of_ge hge)
    exact ⟨stepReturn_of_fetchInstr_error hr hi, _, step_of_fetchInstr_error hr hi, rfl, rfl⟩

end Sys2Proof.Machine
end

section
/-! Proofs of the family `30_encoding.md`: the operands of a decoded word (R81). The decoder is a chain
of rows, each taken or passed on; the operands are shown row by row along that chain. -/

namespace Sys2Proof.Machine

/-- An answer of the decoder for `w` that, if it is an instruction, has its operands from the fields
of `w` (R81). -/
def TakesOperandsFrom (w : Word) (answer : Except DecodeError Instr) : Prop :=
  ∀ i, answer = .ok i → OperandsFrom w i

theorem takesOperandsFrom_ok {w : Word} {i : Instr} (h : OperandsFrom w i) :
    TakesOperandsFrom w (.ok i) := by
  intro j hj
  cases hj
  exact h

theorem takesOperandsFrom_error (w : Word) (e : DecodeError) : TakesOperandsFrom w (.error e) := by
  intro j hj
  cases hj

/-- A row of the decoder: its own instruction when the test holds, else the rows after it. -/
theorem takesOperandsFrom_ite {w : Word} {c : Prop} [Decidable c]
    {row rest : Except DecodeError Instr} (hrow : TakesOperandsFrom w row)
    (hrest : TakesOperandsFrom w rest) : TakesOperandsFrom w (if c then row else rest) :=
  iteInduction (fun _ => hrow) fun _ => hrest

/-- A row that answers an instruction, before the rows after it. -/
theorem takesOperandsFrom_row {w : Word} {c : Prop} [Decidable c] {i : Instr}
    {rest : Except DecodeError Instr} (hi : OperandsFrom w i) (hrest : TakesOperandsFrom w rest) :
    TakesOperandsFrom w (if c then .ok i else rest) :=
  takesOperandsFrom_ite (takesOperandsFrom_ok hi) hrest

/-- `CLS` and `RET` have no operands (R85). -/
theorem takesOperandsFrom_decodeGroup0 (w : Word) : TakesOperandsFrom w (decodeGroup0 w) :=
  takesOperandsFrom_row trivial (takesOperandsFrom_row trivial (takesOperandsFrom_error w _))

/-- Every row of `op = 0x8` has the operands `x` and `y` (R85). -/
theorem takesOperandsFrom_decodeGroup8 (w : Word) : TakesOperandsFrom w (decodeGroup8 w) := by
  unfold decodeGroup8
  iterate 9 refine takesOperandsFrom_row ⟨xField_val w, yField_val w⟩ ?_
  exact takesOperandsFrom_error w _

/-- Both rows of `op = 0xE` have the operand `x` (R85). -/
theorem takesOperandsFrom_decodeGroupE (w : Word) : TakesOperandsFrom w (decodeGroupE w) :=
  takesOperandsFrom_row (xField_val w)
    (takesOperandsFrom_row (xField_val w) (takesOperandsFrom_error w _))

/-- Every row of `op = 0xF` has the operand `x` (R85). -/
theorem takesOperandsFrom_decodeGroupF (w : Word) : TakesOperandsFrom w (decodeGroupF w) := by
  unfold decodeGroupF
  iterate 9 refine takesOperandsFrom_row (xField_val w) ?_
  exact takesOperandsFrom_error w _

/-- The decoder takes operands from the fields of its word: one line for each `op` from `0x0` to
`0xF` (R81, R85). -/
theorem takesOperandsFrom_decode (w : Word) : TakesOperandsFrom w (decode w) := by
  have hx := xField_val w
  have hy := yField_val w
  have hnn := nnField_toNat w
  have hnnn := nnnField_toNat w
  unfold decode
  refine takesOperandsFrom_ite (takesOperandsFrom_decodeGroup0 w) ?_
  refine takesOperandsFrom_row hnnn ?_
  refine takesOperandsFrom_row hnnn ?_
  refine takesOperandsFrom_row ⟨hx, hnn⟩ ?_
  refine takesOperandsFrom_row ⟨hx, hnn⟩ ?_
  refine takesOperandsFrom_row ⟨hx, hy⟩ ?_
  refine takesOperandsFrom_row ⟨hx, hnn⟩ ?_
  refine takesOperandsFrom_row ⟨hx, hnn⟩ ?_
  refine takesOperandsFrom_ite (takesOperandsFrom_decodeGroup8 w) ?_
  refine takesOperandsFrom_row ⟨hx, hy⟩ ?_
  refine takesOperandsFrom_row hnnn ?_
  refine takesOperandsFrom_row hnnn ?_
  refine takesOperandsFrom_row ⟨hx, hnn⟩ ?_
  refine takesOperandsFrom_row ⟨hx, hy, nField_toNat w⟩ ?_
  refine takesOperandsFrom_ite (takesOperandsFrom_decodeGroupE w) ?_
  exact takesOperandsFrom_decodeGroupF w

/-- Settles O3: the fields as numbers, and the operands that the decoder takes from them. -/
theorem operandsAreTheFieldsOfTheWord : Obligations.OperandsAreTheFieldsOfTheWord := fun w =>
  ⟨opField_toNat w, xField_val w, yField_val w, nField_toNat w, nnField_toNat w, nnnField_toNat w,
    takesOperandsFrom_decode w⟩

end Sys2Proof.Machine
end

section
/-! Proofs of the family `41_control_flow.md`: the jump (R122) and the skips on a byte (R124, R125). -/

namespace Sys2Proof.Machine

/-! ### Writing `PC` alone -/

/-- A write of `PC` has the frame of the control transfers (R120). -/
theorem State.setPC_frame (s : State) (a : Word) : PCFrame s (s.setPC a) :=
  ⟨rfl, s.setPC_getV a, s.setPC_readByte a⟩

/-- A skip writes `PC` alone (R102). -/
theorem State.skipIf_frame (s : State) (c : Bool) : PCFrame s (s.skipIf c) :=
  s.setPC_frame _

/-- Writing the value that `PC` already has changes nothing. -/
theorem State.setPC_of_eq {s : State} {a : Word} (h : a = s.pc) : s.setPC a = s := by
  subst h
  rfl

/-- A skip under a decided condition takes `PC + 4` exactly where the condition holds (R102). -/
theorem State.skipIf_decide_pc (s : State) (p : Prop) [Decidable p] :
    (s.skipIf (decide p)).pc = if p then s.pc + 4#16 else s.pc + 2#16 := by
  rw [State.skipIf_pc]
  simp only [decide_eq_true_eq]

/-! ### The meanings -/

theorem exec_jp (nnn : BitVec 12) (s : State) : exec (.jp nnn) s = .next (s.setPC (zext16 nnn)) := rfl

theorem exec_seByte (x : RegIdx) (nn : Byte) (s : State) :
    exec (.seByte x nn) s = .next (s.skipIf (decide (s.getV x = nn))) := rfl

theorem exec_sneByte (x : RegIdx) (nn : Byte) (s : State) :
    exec (.sneByte x nn) s = .next (s.skipIf (decide (s.getV x ≠ nn))) := rfl

/-- Settles O15: the jump writes `PC` alone, with the zero-extended address. So a jump to itself writes
the `PC` that stands there, and at `0xFFF` the second byte of the fetch is outside memory. -/
theorem jpSetsPCToTheAddress : Obligations.JpSetsPCToTheAddress := by
  intro nnn s
  refine ⟨_, exec_jp nnn s, zext16_toNat nnn, s.setPC_frame _, fun hself => ?_, fun htop => ?_⟩
  · have hpc : zext16 nnn = s.pc := BitVec.eq_of_toNat_eq ((zext16_toNat nnn).trans hself)
    exact State.setPC_of_eq hpc
  · subst htop
    exact fetch_of_ge (s := s.setPC (zext16 0xFFF)) (zext16_toNat 0xFFF).ge

/-- Settles O18: both are skips, under `V[x] = nn` and under its negation. -/
theorem skipsOnAByte : Obligations.SkipsOnAByte := by
  intro x nn s
  exact ⟨⟨_, exec_seByte x nn s, s.skipIf_decide_pc _, s.skipIf_frame _⟩,
    ⟨_, exec_sneByte x nn s, s.skipIf_decide_pc _, s.skipIf_frame _⟩⟩

end Sys2Proof.Machine
end

section
/-! Proofs of the family `42_alu.md`: the register loads, `ADD` with a byte and the logic (R141 to R146). -/

namespace Sys2Proof.Machine

/-! ### The frame of a register write -/

theorem RegFrame.refl (written : RegIdx → Prop) (s : State) : RegFrame written s s :=
  ⟨rfl, fun _ _ => rfl, fun _ => rfl⟩

/-- A write of a register that may be written keeps the frame. -/
theorem RegFrame.setV {written : RegIdx → Prop} {s t : State} (h : RegFrame written s t) {x : RegIdx}
    (hx : written x) (b : Byte) : RegFrame written s (t.setV x b) := by
  obtain ⟨hstate, hregs, hmem⟩ := h
  refine ⟨congrArg (State.setV · x b) hstate, fun r hr => ?_, hmem⟩
  have hne : r ≠ x := fun e => hr (e ▸ hx)
  rw [State.getV_setV, if_neg hne, hregs r hr]

/-- The step to the next instruction writes `PC`, which is outside the frame. -/
theorem RegFrame.advance {written : RegIdx → Prop} {s t : State} (h : RegFrame written s t) :
    RegFrame written s t.advance := by
  obtain ⟨hstate, hregs, hmem⟩ := h
  exact ⟨congrArg State.advance hstate, hregs, hmem⟩

/-! ### Writing `V[x]` alone -/

/-- `V[x] := b`, then the next instruction: `V[x]` and `PC` are all that is written (R140). -/
theorem State.setV_advance_frame (s : State) (x : RegIdx) (b : Byte) :
    RegFrame (· = x) s (s.setV x b).advance :=
  ((RegFrame.refl (· = x) s).setV rfl b).advance

theorem State.setV_advance_getV (s : State) (x : RegIdx) (b : Byte) :
    (s.setV x b).advance.getV x = b := by
  rw [State.advance_getV, State.getV_setV, if_pos rfl]

/-- Writing the value that a register already has changes no register. -/
theorem State.getV_setV_self (s : State) (x r : RegIdx) : (s.setV x (s.getV x)).getV r = s.getV r := by
  rw [State.getV_setV]
  split
  case isTrue h => rw [h]
  case isFalse => rfl

/-! ### The meanings -/

theorem exec_ldByte (x : RegIdx) (nn : Byte) (s : State) :
    exec (.ldByte x nn) s = .next (s.setV x nn).advance := rfl

theorem exec_addByte (x : RegIdx) (nn : Byte) (s : State) :
    exec (.addByte x nn) s = .next (s.setV x (s.getV x + nn)).advance := rfl

theorem exec_ldReg (x y : RegIdx) (s : State) :
    exec (.ldReg x y) s = .next (s.setV x (s.getV y)).advance := rfl

theorem exec_orReg (x y : RegIdx) (s : State) :
    exec (.orReg x y) s = .next (s.setV x (s.getV x ||| s.getV y)).advance := rfl

theorem exec_andReg (x y : RegIdx) (s : State) :
    exec (.andReg x y) s = .next (s.setV x (s.getV x &&& s.getV y)).advance := rfl

theorem exec_xorReg (x y : RegIdx) (s : State) :
    exec (.xorReg x y) s = .next (s.setV x (s.getV x ^^^ s.getV y)).advance := rfl

/-- Settles O21: both loads write `V[x]` alone; with `x = y` the value written is the one that stands
there. -/
theorem loadsOfARegister : Obligations.LoadsOfARegister := by
  intro x y nn s
  refine ⟨⟨_, exec_ldByte x nn s, s.setV_advance_getV x _, s.setV_advance_frame x _⟩,
    ⟨_, exec_ldReg x y s, s.setV_advance_getV x _, s.setV_advance_frame x _, ?_⟩⟩
  rintro rfl r
  exact s.getV_setV_self x r

/-- Settles O22: the sum of two bytes as bit vectors is their sum modulo 256, and it goes to `V[x]` alone. -/
theorem addByteWrapsWithoutCarry : Obligations.AddByteWrapsWithoutCarry := by
  intro x nn s
  refine ⟨_, exec_addByte x nn s, ?_, s.setV_advance_frame x _⟩
  rw [State.setV_advance_getV, BitVec.toNat_add]

/-- Settles O23: each of the three writes `V[x]` alone, with a value that is known bit by bit; with
`x = y` OR and AND are idempotent and XOR cancels. -/
theorem logicWorksBitByBit : Obligations.LogicWorksBitByBit := by
  intro x y s
  refine ⟨⟨_, exec_orReg x y s, s.setV_advance_frame x _, ?_⟩,
    ⟨_, exec_andReg x y s, s.setV_advance_frame x _, ?_⟩,
    ⟨_, exec_xorReg x y s, s.setV_advance_frame x _, ?_⟩⟩ <;>
    rw [State.setV_advance_getV]
  · refine ⟨fun _ => BitVec.getLsbD_or, ?_⟩
    rintro rfl
    exact BitVec.or_self
  · refine ⟨fun _ => BitVec.getLsbD_and, ?_⟩
    rintro rfl
    exact BitVec.and_self
  · refine ⟨fun _ => BitVec.getLsbD_xor, ?_⟩
    rintro rfl
    exact BitVec.xor_self

end Sys2Proof.Machine
end

section
/-! Proofs of the family `43_index_memory.md`: the index load (R171) and the block transfers (R176 to R178). -/

namespace Sys2Proof.Machine

/-! ### Writing `I` alone -/

/-- `I := a`, then the next instruction: `I` and `PC` are all that is written (R170). -/
theorem State.setI_advance_frame (s : State) (a : Word) : IndexFrame s (s.setI a).advance :=
  ⟨rfl, s.setI_getV a, s.setI_readByte a⟩

/-! ### The reach of a block transfer -/

/-- `I` after a transfer: past the last byte moved, so at most at the end of memory, and unmoved where no
address exists (R176 to R178). -/
theorem add_transferCount_toNat (i : Word) (x : RegIdx) :
    (i + BitVec.ofNat 16 (transferCount i.toNat x)).toNat =
      if 0xFFF < i.toNat then i.toNat else min (i.toNat + x.val + 1) 0x1000 := by
  have hi := i.isLt
  have hx := x.isLt
  rw [BitVec.toNat_add, BitVec.toNat_ofNat, transferCount, Config.memSize]
  split
  case isTrue hout => omega
  case isFalse hin => omega

/-- The bytes a transfer reaches are the existing addresses `I + r` of its registers (R178). -/
theorem exists_reg_of_lt_transferCount {base a : Nat} {x : RegIdx} (hlo : base ≤ a)
    (hhi : a < base + transferCount base x) :
    ∃ r : RegIdx, r ≤ x ∧ base + r.val ≤ 0xFFF ∧ a = base + r.val := by
  have hcount := transferCount_le base x
  obtain ⟨hle, hex⟩ := (lt_transferCount base x ⟨a - base, by omega⟩).mp (show a - base < _ by omega)
  exact ⟨_, hle, hex, show a = base + (a - base) by omega⟩

/-! ### What a transfer moves -/

/-- The first `n` registers stored from `base` on are read back, each at its own address. -/
theorem State.readByte_setMem_firstRegs {s : State} (hm : Memory.wf s.cfg.font s.mem) (base : Nat)
    {n : Nat} (hn : n ≤ 16) {r : RegIdx} (hr : r.val < n) :
    (s.setMem (Memory.writeBytes s.cfg.font s.mem base (firstRegs s.v n))).readByte (base + r.val) =
      s.getV r := by
  rw [s.readByte_setMem_writeBytes base _ _ hm, firstRegs_length s.v hn, if_pos (by omega),
    Nat.add_sub_cancel_left]
  exact firstRegs_getD s.v n r hr

/-- The first `n` registers stored from `base` on leave every byte outside that run as it was. -/
theorem State.readByte_setMem_firstRegs_outside {s : State} (hm : Memory.wf s.cfg.font s.mem)
    {base n a : Nat} (hn : n ≤ 16) (ha : ¬ (base ≤ a ∧ a < base + n)) :
    (s.setMem (Memory.writeBytes s.cfg.font s.mem base (firstRegs s.v n))).readByte a = s.readByte a := by
  rw [s.readByte_setMem_writeBytes base _ _ hm, firstRegs_length s.v hn, if_neg ha]

/-- A register after `n` bytes are loaded from `base` on into `V[0]`, `V[1]`, ... -/
theorem putRegs_readBytes_get (s : State) (base n : Nat) (r : RegIdx) :
    (putRegs s.v 0 (Memory.readBytes s.cfg.font s.mem base n)).get r =
      if r.val < n then s.readByte (base + r.val) else s.getV r := by
  simp only [putRegs_get, Memory.readBytes_length, Nat.zero_le, true_and, Nat.zero_add, Nat.sub_zero]
  split
  case isTrue h => exact Memory.readBytes_getD s.cfg.font s.mem n base r.val h
  case isFalse => rfl

/-! ### The meanings -/

theorem exec_ldI (nnn : BitVec 12) (s : State) :
    exec (.ldI nnn) s = .next (s.setI (zext16 nnn)).advance := rfl

theorem exec_storeRegs (x : RegIdx) (s : State) :
    exec (.storeRegs x) s = .next ((s.setMem (Memory.writeBytes s.cfg.font s.mem s.i.toNat
      (firstRegs s.v (transferCount s.i.toNat x)))).setI
        (s.i + BitVec.ofNat 16 (transferCount s.i.toNat x))).advance := rfl

theorem exec_loadRegs (x : RegIdx) (s : State) :
    exec (.loadRegs x) s = .next ((s.setRegs (putRegs s.v 0 (Memory.readBytes s.cfg.font s.mem s.i.toNat
      (transferCount s.i.toNat x)))).setI
        (s.i + BitVec.ofNat 16 (transferCount s.i.toNat x))).advance := rfl

/-- Settles O33: the bytes written are a run of the transfer's count from `I` on, and the addresses of
that run are exactly the existing `I + r`. -/
theorem storeRegsStoresUpToTheBound : Obligations.StoreRegsStoresUpToTheBound := by
  intro x s hm
  have hn := transferCount_le s.i.toNat x
  refine ⟨_, exec_storeRegs x s, rfl, fun r hr hex => ?_, fun a ha => ?_,
    add_transferCount_toNat s.i x, rfl, fun _ => rfl⟩ <;>
    rw [State.advance_readByte, State.setI_readByte]
  · exact State.readByte_setMem_firstRegs hm _ hn ((lt_transferCount _ x r).mpr ⟨hr, hex⟩)
  · refine State.readByte_setMem_firstRegs_outside hm hn fun ⟨hlo, hhi⟩ => ?_
    obtain ⟨r, hr, hex, heq⟩ := exists_reg_of_lt_transferCount hlo hhi
    exact ha r hr hex heq

/-- Settles O34: the registers written are those below the transfer's count, which are exactly the `r <= x`
whose address `I + r` exists. -/
theorem loadRegsLoadsUpToTheBound : Obligations.LoadRegsLoadsUpToTheBound := by
  intro x s
  refine ⟨_, exec_loadRegs x s, rfl, fun r hr hex => ?_, fun r hr => ?_,
    add_transferCount_toNat s.i x, rfl, fun _ => rfl⟩ <;>
    rw [State.advance_getV, State.setI_getV, State.getV_setRegs, putRegs_readBytes_get]
  · exact if_pos ((lt_transferCount _ x r).mpr ⟨hr, hex⟩)
  · exact if_neg (mt (lt_transferCount _ x r).mp hr)

/-- Settles O30: the zero-extended address goes to `I` alone. -/
theorem ldISetsTheIndex : Obligations.LdISetsTheIndex := fun nnn s =>
  ⟨_, exec_ldI nnn s, zext16_toNat nnn, s.setI_advance_frame _⟩

end Sys2Proof.Machine
end

section
/-! Proofs of the family `45_keypad_timers.md`: the timer moves (R202, R204, R205). -/

namespace Sys2Proof.Machine

theorem exec_ldVxDT (x : RegIdx) (s : State) : exec (.ldVxDT x) s = .next (s.setV x s.dt).advance := rfl

theorem exec_ldDTVx (x : RegIdx) (s : State) : exec (.ldDTVx x) s = .next (s.setDT (s.getV x)).advance := rfl

theorem exec_ldSTVx (x : RegIdx) (s : State) : exec (.ldSTVx x) s = .next (s.setST (s.getV x)).advance := rfl

/-- Settles O43: the read of `DT` is a write of `V[x]` alone; each write of a timer sets that timer and
`PC`, so that registers and memory read as before. -/
theorem timerMoves : Obligations.TimerMoves := by
  intro x s
  exact ⟨⟨_, exec_ldVxDT x s, s.setV_advance_getV x _, s.setV_advance_frame x _⟩,
    ⟨_, exec_ldDTVx x s, s.setDT_dt _, rfl, s.setDT_getV (s.getV x), s.setDT_readByte (s.getV x)⟩,
    ⟨_, exec_ldSTVx x s, s.setST_st _, rfl, s.setST_getV (s.getV x), s.setST_readByte (s.getV x)⟩⟩

end Sys2Proof.Machine
end

section
/-! Proofs of the family `60_exceptions.md`: the release of a key (R240). -/

namespace Sys2Proof.Machine

/-- The code of a key names that key. -/
@[simp] theorem keyOf_val (k : Fin 16) : keyOf k.val = k := Fin.ext (Nat.mod_eq_of_lt k.isLt)

theorem State.isKeyPressed_val (s : State) (k : Fin 16) : s.isKeyPressed k.val = s.keys.get k :=
  congrArg s.keys.get (keyOf_val k)

/-- The flags after a write of one key's flag. -/
theorem State.setKey_keys_get (s : State) (key : Fin 16) (on : Bool) (k : Fin 16) :
    (s.setKey key on).keys.get k = if k = key then on else s.keys.get k := by
  rw [← State.isKeyPressed_val, State.isKeyPressed_setKey, keyOf_val, State.isKeyPressed_val]

/-- A legal key code (R239) is not refused: its release writes the key's flag. -/
theorem hostCall_releaseKey (key : Fin 16) (s : State) :
    hostCall (.releaseKey key.val) s = .next (s.setKey key false) := by
  have legal : (HostCall.releaseKey key.val).wf = true := decide_eq_true key.isLt
  rw [hostCall, releaseKey, if_pos legal, keyOf_val]

/-- Settles O46: the call is the write of one key's flag, which leaves every other field as it was. -/
theorem releaseKeyClearsItsFlag : Obligations.ReleaseKeyClearsItsFlag := fun s key =>
  ⟨s.setKey key false, hostCall_releaseKey key s, s.setKey_keys_get key false, rfl,
    s.setKey_run key false⟩

end Sys2Proof.Machine
end

section
/-! Proofs about the decoder and the opcode map (30_encoding.md). A row of the map is selected by the fields
that its mask keeps, and the decoder tests the same fields. -/

namespace Sys2Proof.Machine

/-! ### Decoding an encoded instruction -/

/-- The decoder reads an instruction back from its own word (R84, R85). -/
theorem decode_encode (i : Instr) : decode (encode i) = .ok i := by
  cases i <;> simp [encode, decode, decodeGroup0, decodeGroup8, decodeGroupE, decodeGroupF]

/-- Settles O1: the two bytes of the word join to the word again, which decodes to the instruction; what
follows them is left. -/
theorem decodeEncodeRoundTrip : Obligations.DecodeEncodeRoundTrip := by
  intro i rest _
  have hbytes : encodeBytes i ++ rest =
      (encode i).extractLsb' 8 8 :: (encode i).extractLsb' 0 8 :: rest := rfl
  rw [hbytes, decodeBytes, wordOfBytes_bytesOfWord, decode_encode]

/-- Settles O5: the decoder's branches for these groups test `op` and, in group 0, `nn` alone. -/
theorem untestedNibblesAreIgnored : Obligations.UntestedNibblesAreIgnored := by
  intro x y n
  refine ⟨?_, ?_, ?_, ?_⟩ <;> simp [decode, decodeGroup0]

/-- Settles O6: each word is the encoding of the instruction that it stands for. -/
theorem specWordsDecode : Obligations.SpecWordsDecode :=
  ⟨decode_encode (.ldReg 2 1), decode_encode (.subReg 0 1), decode_encode (.subn 2 3),
    decode_encode (.shl 1 0), decode_encode (.shr 3 2), decode_encode .cls, decode_encode (.jp 0xABC),
    decode_encode (.drw 4 5 0xA), decode_encode (.skp 1), decode_encode (.loadRegs 2)⟩

/-! ### Masks as fields -/

/-- The mask `0xF000` keeps `op`. -/
theorem and_opMask_eq_iff {w p : Word} (hp : p &&& 0xF000#16 = p) :
    w &&& 0xF000#16 = p ↔ opField w = p.extractLsb' 12 4 := by
  have hpn := congrArg BitVec.toNat hp
  rw [and_opMask_toNat] at hpn
  rw [BitVec.toNat_eq, BitVec.toNat_eq, and_opMask_toNat, opField_toNat, ← opField, opField_toNat]
  omega

/-- The mask `0xF00F` keeps `op` and `n`. -/
theorem and_opNMask_eq_iff {w p : Word} (hp : p &&& 0xF00F#16 = p) :
    w &&& 0xF00F#16 = p ↔ opField w = p.extractLsb' 12 4 ∧ nField w = p.extractLsb' 0 4 := by
  have hpn := congrArg BitVec.toNat hp
  rw [and_opNMask_toNat] at hpn
  rw [BitVec.toNat_eq, BitVec.toNat_eq, BitVec.toNat_eq, and_opNMask_toNat, opField_toNat, ← opField,
    opField_toNat, nField_toNat, ← nField, nField_toNat]
  omega

/-- The mask `0xF0FF` keeps `op` and `nn`. -/
theorem and_opNNMask_eq_iff {w p : Word} (hp : p &&& 0xF0FF#16 = p) :
    w &&& 0xF0FF#16 = p ↔ opField w = p.extractLsb' 12 4 ∧ nnField w = p.extractLsb' 0 8 := by
  have hpn := congrArg BitVec.toNat hp
  rw [and_opNNMask_toNat] at hpn
  rw [BitVec.toNat_eq, BitVec.toNat_eq, BitVec.toNat_eq, and_opNNMask_toNat, opField_toNat, ← opField,
    opField_toNat, nnField_toNat, ← nnField, nnField_toNat]
  omega

/-! ### The decoder and the rows of the map -/

/-- An answer of the decoder for `w` as the map has it: an instruction whose row `w` selects, where `w` is
none of the unknown words, or the rejection of `w`, where it is one (R85, R86). -/
def AnswersByRow (w : Word) : Except DecodeError Instr → Prop
  | .ok i => w &&& i.row.mask = i.row.pattern ∧ ¬ UnknownWord w
  | .error e => e = .unknownOpcode w ∧ UnknownWord w

/-- A branch of the decoder. -/
theorem answersByRow_ite {w : Word} {c : Prop} [Decidable c] {row rest : Except DecodeError Instr}
    (hrow : c → AnswersByRow w row) (hrest : ¬ c → AnswersByRow w rest) :
    AnswersByRow w (if c then row else rest) :=
  iteInduction hrow hrest

/-- `op = 0x0`: `nn` selects one of two rows, or the word is unknown. -/
theorem answersByRow_decodeGroup0 {w : Word} (hop : opField w = 0x0) :
    AnswersByRow w (decodeGroup0 w) := by
  unfold decodeGroup0
  split_ifs <;> simp_all [AnswersByRow, Instr.row, UnknownWord, and_opNNMask_eq_iff]

/-- The values of `n` that `op = 0x8` leaves to no row. -/
theorem unknown_n_of_notMem (n : BitVec 4) (h : n ∉ ([0, 1, 2, 3, 4, 5, 6, 7, 0xE] : List (BitVec 4))) :
    8 ≤ n.toNat ∧ n.toNat ≤ 13 ∨ n = 0xF := by
  revert n
  decide

/-- `op = 0x8`: `n` selects one of nine rows, or the word is unknown. -/
theorem answersByRow_decodeGroup8 {w : Word} (hop : opField w = 0x8) :
    AnswersByRow w (decodeGroup8 w) := by
  have hn := unknown_n_of_notMem (nField w)
  unfold decodeGroup8
  split_ifs <;> simp_all [AnswersByRow, Instr.row, UnknownWord, and_opNMask_eq_iff]

/-- `op = 0xE`: `nn` selects one of two rows, or the word is unknown. -/
theorem answersByRow_decodeGroupE {w : Word} (hop : opField w = 0xE) :
    AnswersByRow w (decodeGroupE w) := by
  unfold decodeGroupE
  split_ifs <;> simp_all [AnswersByRow, Instr.row, UnknownWord, and_opNNMask_eq_iff]

/-- `op = 0xF`: `nn` selects one of nine rows, or the word is unknown. -/
theorem answersByRow_decodeGroupF {w : Word} (hop : opField w = 0xF) :
    AnswersByRow w (decodeGroupF w) := by
  unfold decodeGroupF
  split_ifs <;> simp_all [AnswersByRow, Instr.row, UnknownWord, and_opNNMask_eq_iff]

/-- A group of one row: `op` alone selects it, and no word of the group is unknown. -/
theorem answersByRow_ok {w : Word} {i : Instr} {op : BitVec 4} (hrow : i.row = ⟨0xF000, op ++ 0#12⟩)
    (hknown : op ∉ ([0x0, 0x8, 0xE, 0xF] : List (BitVec 4))) (hop : opField w = op) :
    AnswersByRow w (.ok i) := by
  subst hop
  have hmask : (opField w ++ 0#12) &&& 0xF000#16 = opField w ++ 0#12 := by
    generalize opField w = op
    revert op
    decide
  have hself : opField w = (opField w ++ 0#12).extractLsb' 12 4 := by
    generalize opField w = op
    revert op
    decide
  refine ⟨?_, fun hunknown => hknown ?_⟩
  · rw [hrow]
    exact (and_opMask_eq_iff hmask).mpr hself
  · obtain ⟨h, -⟩ | ⟨h, -⟩ | ⟨h, -⟩ | ⟨h, -⟩ := hunknown <;> simp [h]

/-- The value of `op` that the decoder's last branch is left with. -/
theorem eq_F_of_notMem (op : BitVec 4)
    (h : op ∉ ([0, 1, 2, 3, 4, 5, 6, 7, 8, 9, 0xA, 0xB, 0xC, 0xD, 0xE] : List (BitVec 4))) :
    op = 0xF := by
  revert op
  decide

/-- The decoder answers by the rows of the map: one line for each `op` from `0x0` to `0xF` (R84, R85). -/
theorem answersByRow_decode (w : Word) : AnswersByRow w (decode w) := by
  unfold decode
  refine answersByRow_ite answersByRow_decodeGroup0 fun _ => ?_
  refine answersByRow_ite (answersByRow_ok rfl (by decide)) fun _ => ?_
  refine answersByRow_ite (answersByRow_ok rfl (by decide)) fun _ => ?_
  refine answersByRow_ite (answersByRow_ok rfl (by decide)) fun _ => ?_
  refine answersByRow_ite (answersByRow_ok rfl (by decide)) fun _ => ?_
  refine answersByRow_ite (answersByRow_ok rfl (by decide)) fun _ => ?_
  refine answersByRow_ite (answersByRow_ok rfl (by decide)) fun _ => ?_
  refine answersByRow_ite (answersByRow_ok rfl (by decide)) fun _ => ?_
  refine answersByRow_ite answersByRow_decodeGroup8 fun _ => ?_
  refine answersByRow_ite (answersByRow_ok rfl (by decide)) fun _ => ?_
  refine answersByRow_ite (answersByRow_ok rfl (by decide)) fun _ => ?_
  refine answersByRow_ite (answersByRow_ok rfl (by decide)) fun _ => ?_
  refine answersByRow_ite (answersByRow_ok rfl (by decide)) fun _ => ?_
  refine answersByRow_ite (answersByRow_ok rfl (by decide)) fun _ => ?_
  refine answersByRow_ite answersByRow_decodeGroupE fun _ => ?_
  exact answersByRow_decodeGroupF (eq_F_of_notMem _ (by simp_all))

/-- A decoded word selects the row of its instruction. -/
theorem and_mask_of_decode {w : Word} {i : Instr} (h : decode w = .ok i) :
    w &&& i.row.mask = i.row.pattern := by
  have hw := answersByRow_decode w
  rw [h] at hw
  exact hw.left

/-- A word decodes, and is none of R86's, or is rejected, and is one of them. -/
theorem decode_cases (w : Word) :
    ((∃ i, decode w = .ok i) ∧ ¬ UnknownWord w) ∨
      (decode w = .error (.unknownOpcode w) ∧ UnknownWord w) := by
  have hw := answersByRow_decode w
  cases h : decode w with
  | ok i =>
    rw [h] at hw
    exact .inl ⟨⟨i, rfl⟩, hw.right⟩
  | error e =>
    rw [h] at hw
    obtain ⟨rfl, hunknown⟩ := hw
    exact .inr ⟨rfl, hunknown⟩

/-- R86: the words that do not decode. -/
theorem decode_ne_ok_iff (w : Word) : (∀ i, decode w ≠ .ok i) ↔ UnknownWord w := by
  obtain ⟨⟨i, hi⟩, hknown⟩ | ⟨herr, hunknown⟩ := decode_cases w
  · exact iff_of_false (fun h => h i hi) hknown
  · exact iff_of_true (fun i => by simp [herr]) hunknown

/-- The row of every instruction is one of the map's. -/
theorem row_mem_opcodeMap (i : Instr) : i.row ∈ opcodeMap := by
  cases i <;> simp [Instr.row, opcodeMap]

/-- Two rows of the map that agree where both masks test are one row. -/
theorem row_eq_of_patterns_agree : ∀ p ∈ opcodeMap, ∀ q ∈ opcodeMap,
    p.pattern &&& q.mask = q.pattern &&& p.mask → p = q := by
  decide

/-- The rows of the map are disjoint: a word selects at most one (R85). -/
theorem row_eq_of_selected {w : Word} {p q : OpcodeRow} (hp : p ∈ opcodeMap) (hq : q ∈ opcodeMap)
    (hwp : w &&& p.mask = p.pattern) (hwq : w &&& q.mask = q.pattern) : p = q := by
  refine row_eq_of_patterns_agree p hp q hq ?_
  rw [← hwp, ← hwq, BitVec.and_assoc, BitVec.and_assoc, BitVec.and_comm p.mask]

/-- A word that selects a row of the map is none of the unknown words. -/
theorem not_unknownWord_of_selected {w : Word} {r : OpcodeRow} (hr : r ∈ opcodeMap)
    (h : w &&& r.mask = r.pattern) : ¬ UnknownWord w := by
  fin_cases hr <;>
    simp [and_opMask_eq_iff, and_opNMask_eq_iff, and_opNNMask_eq_iff] at h <;> simp [UnknownWord, h]

/-- Settles O2: a decoded word selects its instruction's row and, the rows being disjoint, no other; a
rejected word is unknown, and an unknown word selects no row. -/
theorem decoderFollowsTheOpcodeMap : Obligations.DecoderFollowsTheOpcodeMap := by
  intro w
  refine ⟨fun i hi => ?_, ⟨fun hnone => ?_, fun herr r hr hsel => ?_⟩, ?_⟩
  · have hsel := and_mask_of_decode hi
    have hmem := row_mem_opcodeMap i
    refine ⟨hmem, fun r hr => ⟨fun h => row_eq_of_selected hr hmem h hsel, ?_⟩⟩
    rintro rfl
    exact hsel
  · obtain ⟨⟨i, hi⟩, -⟩ | ⟨herr, -⟩ := decode_cases w
    · exact absurd (and_mask_of_decode hi) (hnone i.row (row_mem_opcodeMap i))
    · exact herr
  · refine not_unknownWord_of_selected hr hsel ((decode_ne_ok_iff w).mp fun i hi => ?_)
    rw [herr] at hi
    cases hi
  · exact (decode_cases w).imp And.left And.left

end Sys2Proof.Machine
end

section
/-! What executing an instruction does, said once: it raises its error and changes the run state alone, or
it has its effect (R104, R105). Proofs over all instructions cite this and split `effect`. -/

namespace Sys2Proof.Machine

/-! ### The effect of an instruction -/

/-- The framebuffer and the collision that `DRW Vx, Vy, n` makes of a sprite inside memory (R191, R193). -/
def State.drawn (s : State) (x y : RegIdx) (n : BitVec 4) : Framebuffer × Bool :=
  drawRows s.cfg.width s.cfg.height (s.getV x).toNat (s.getV y).toNat
    (Memory.readBytes s.cfg.font s.mem s.i.toNat n.toNat) (s.fb, false)

/-- The state after an instruction that raises no error; `exec_of_raises_none` ties it to `exec`. -/
def effect (i : Instr) (s : State) : State :=
  match i with
  | .cls => s.clearScreen.advance
  | .ret => (s.setStack s.stack.dropLast).setPC (s.stack.getLastD 0)
  | .jp nnn => s.setPC (zext16 nnn)
  | .call nnn => (s.setStack (s.stack ++ [s.pc + 2#16])).setPC (zext16 nnn)
  | .seByte x nn => s.skipIf (decide (s.getV x = nn))
  | .sneByte x nn => s.skipIf (decide (s.getV x ≠ nn))
  | .seReg x y => s.skipIf (decide (s.getV x = s.getV y))
  | .ldByte x nn => (s.setV x nn).advance
  | .addByte x nn => (s.setV x (s.getV x + nn)).advance
  | .ldReg x y => (s.setV x (s.getV y)).advance
  | .orReg x y => (s.setV x (s.getV x ||| s.getV y)).advance
  | .andReg x y => (s.setV x (s.getV x &&& s.getV y)).advance
  | .xorReg x y => (s.setV x (s.getV x ^^^ s.getV y)).advance
  | .addReg x y =>
    (s.writeThenFlag x (s.getV x + s.getV y) (carryFlag (s.getV x) (s.getV y))).advance
  | .subReg x y =>
    (s.writeThenFlag x (s.getV x - s.getV y) (noBorrowFlag (s.getV x) (s.getV y))).advance
  | .shr x y => (s.flagThenWrite x (s.getV y >>> 1) (lowBitFlag (s.getV y))).advance
  | .subn x y =>
    (s.writeThenFlag x (s.getV y - s.getV x) (noBorrowFlag (s.getV y) (s.getV x))).advance
  | .shl x y => (s.flagThenWrite x (s.getV y <<< 1) (highBitFlag (s.getV y))).advance
  | .sneReg x y => s.skipIf (decide (s.getV x ≠ s.getV y))
  | .ldI nnn => (s.setI (zext16 nnn)).advance
  | .jpV0 nnn => s.setPC (zext16 nnn + zextByte (s.getV 0))
  | .rnd x nn => (s.afterDraw.setV x (s.rndByte &&& nn)).advance
  | .drw x y n => ((s.setFb (s.drawn x y n).1).setV vf (flagByte (s.drawn x y n).2)).advance
  | .skp x => s.skipIf (s.isKeyPressed (s.getV x).toNat)
  | .sknp x => s.skipIf (!s.isKeyPressed (s.getV x).toNat)
  | .ldVxDT x => (s.setV x s.dt).advance
  | .ldVxK x => (s.setRun (.awaitKey x)).advance
  | .ldDTVx x => (s.setDT (s.getV x)).advance
  | .ldSTVx x => (s.setST (s.getV x)).advance
  | .addI x => (s.setI (s.i + zextByte (s.getV x))).advance
  | .ldF x => (s.setI (glyphAddress (s.getV x))).advance
  | .ldB x =>
    (s.setMem (Memory.writeBytes s.cfg.font s.mem s.i.toNat (bcdDigits (s.getV x)))).advance
  | .storeRegs x =>
    ((s.setMem (Memory.writeBytes s.cfg.font s.mem s.i.toNat
      (firstRegs s.v (transferCount s.i.toNat x)))).setI
        (s.i + BitVec.ofNat 16 (transferCount s.i.toNat x))).advance
  | .loadRegs x =>
    ((s.setRegs (putRegs s.v 0 (Memory.readBytes s.cfg.font s.mem s.i.toNat
      (transferCount s.i.toNat x)))).setI
        (s.i + BitVec.ofNat 16 (transferCount s.i.toNat x))).advance

/-- An instruction that raises nothing has its effect. -/
theorem exec_of_raises_none {i : Instr} {s : State} (h : raises i s = none) :
    exec i s = .next (effect i s) := by
  cases i with
  | ret =>
    obtain ⟨rest, a, hstack, hpop⟩ | ⟨-, hpop⟩ := s.pop_cases
    · simp [exec, execRet, hpop, effect, hstack]
    · simp [raises, hpop] at h
  | call nnn =>
    obtain ⟨-, hpush⟩ | ⟨-, hpush⟩ := s.push_cases (s.pc + 2#16)
    · simp only [exec, execCall, hpush, effect]
    · simp [raises, hpush] at h
  | drw x y n =>
    obtain ⟨-, hblock⟩ | ⟨-, hblock⟩ := s.block_cases s.i.toNat n.toNat
    · simp only [exec, execDrw, hblock, effect, State.drawn]
    · simp [raises, hblock] at h
  | ldB x =>
    obtain ⟨-, hload⟩ | ⟨-, hload⟩ := s.load_cases s.i.toNat (bcdDigits (s.getV x))
    · simp only [exec, execLdB, hload, effect]
    · simp [raises, hload] at h
  | _ => rfl

/-- Everything that executing an instruction can do. -/
theorem exec_cases {i : Instr} {s t : State} (h : exec i s = .next t) :
    (∃ e, raises i s = some e ∧ t = s.setRun (.faulted e.kind)) ∨
      (raises i s = none ∧ t = effect i s) := by
  cases hr : raises i s with
  | none =>
    rw [exec_of_raises_none hr] at h
    cases h
    exact .inr ⟨rfl, rfl⟩
  | some e =>
    rw [exec_of_raises hr] at h
    cases h
    exact .inl ⟨e, rfl, rfl⟩

/-- An instruction that raises an error changes the run state alone. -/
theorem exec_onlyFaults {i : Instr} {s : State} {e : CoreError} (h : raises i s = some e) :
    ∃ t, exec i s = .next t ∧ OnlyFaults e.kind s t := by
  rw [exec_of_raises h]
  exact raise_onlyFaults e s

/-! ### Where an instruction raises an error (R220) -/

theorem raises_ret (s : State) :
    raises .ret s = if s.stack = [] then some (.stackUnderflow s.pc.toNat) else none := by
  obtain ⟨rest, a, hstack, hpop⟩ | ⟨hstack, hpop⟩ := s.pop_cases <;> simp [raises, hpop, hstack]

theorem raises_call (nnn : BitVec 12) (s : State) :
    raises (.call nnn) s = if 16 ≤ s.stack.length then some (.stackOverflow s.pc.toNat) else none := by
  obtain ⟨hlen, hpush⟩ | ⟨hlen, hpush⟩ := s.push_cases (s.pc + 2#16) <;> simp [raises, hpush, hlen]

theorem raises_drw (x y : RegIdx) (n : BitVec 4) (s : State) :
    raises (.drw x y n) s =
      if 4096 < s.i.toNat + n.toNat then some (.outOfRange s.i.toNat) else none := by
  obtain ⟨hlen, hblock⟩ | ⟨hlen, hblock⟩ := s.block_cases s.i.toNat n.toNat <;>
    simp [raises, hblock, hlen]

theorem raises_ldB (x : RegIdx) (s : State) :
    raises (.ldB x) s = if 4096 < s.i.toNat + 3 then some (.outOfRange s.i.toNat) else none := by
  obtain ⟨hlen, hload⟩ | ⟨hlen, hload⟩ := s.load_cases s.i.toNat (bcdDigits (s.getV x)) <;>
    rw [show (bcdDigits (s.getV x)).length = 3 from rfl] at hlen <;> simp [raises, hload, hlen]

/-- The four instructions that can raise an error, each with its own condition and information. -/
theorem raises_eq_some_iff {i : Instr} {s : State} {e : CoreError} : raises i s = some e ↔
    (i = .ret ∧ s.stack = [] ∧ e = .stackUnderflow s.pc.toNat) ∨
    (∃ nnn, i = .call nnn ∧ 16 ≤ s.stack.length ∧ e = .stackOverflow s.pc.toNat) ∨
    (∃ x y n, i = .drw x y n ∧ 4096 < s.i.toNat + n.toNat ∧ e = .outOfRange s.i.toNat) ∨
    ∃ x, i = .ldB x ∧ 4096 < s.i.toNat + 3 ∧ e = .outOfRange s.i.toNat := by
  cases i with
  | ret => simp [raises_ret, eq_comm]
  | call nnn => simp [raises_call, eq_comm]
  | drw x y n => simp [raises_drw, eq_comm]
  | ldB x => simp [raises_ldB, eq_comm]
  | _ => simp [raises]

/-- No instruction raises InvalidRegister (R21). -/
theorem kind_ne_invalidRegister_of_raises {i : Instr} {s : State} {e : CoreError}
    (h : raises i s = some e) : e.kind ≠ .invalidRegister := by
  obtain ⟨-, -, rfl⟩ | ⟨_, -, -, rfl⟩ | ⟨_, _, _, -, -, rfl⟩ | ⟨_, -, -, rfl⟩ :=
    raises_eq_some_iff.mp h <;> simp [CoreError.kind]

/-! ### Fetching and the step -/

theorem fetchInstr_eq_ok_iff {s : State} {i : Instr} :
    fetchInstr s = .ok i ↔ ∃ w, fetch s = .ok w ∧ decode w = .ok i := by
  unfold fetchInstr
  cases fetch s with
  | error e => simp
  | ok w => cases hw : decode w <;> simp [hw]

/-- A fetch without an instruction: outside memory, or a word of no row (R226, R86). -/
theorem fetchInstr_eq_error_iff {s : State} {e : CoreError} :
    fetchInstr s = .error e ↔ (0xFFF ≤ s.pc.toNat ∧ e = .outOfRange s.pc.toNat) ∨
      ∃ w, fetch s = .ok w ∧ (∀ i, decode w ≠ .ok i) ∧ e = .unknownOpcode w := by
  unfold fetchInstr
  obtain ⟨hle, hf⟩ | ⟨hge, hf⟩ := fetch_cases s
  · have hlt : ¬ 0xFFF ≤ s.pc.toNat := by omega
    generalize wordOfBytes _ _ = w at hf
    cases hw : decode w <;> simp [hf, hlt, hw, eq_comm]
  · simp [hf, hge, eq_comm]

theorem step_of_awaitKey {s : State} {r : RegIdx} (h : s.run = .awaitKey r) : step s = .next s := by
  simp only [step, h, stepAwaiting]

theorem stepReturn_of_awaitKey {s : State} {r : RegIdx} (h : s.run = .awaitKey r) :
    stepReturn s = .ok false := by
  simp only [stepReturn, h]

theorem step_of_faulted {s : State} {k : ErrorKind} (h : s.run = .faulted k) : step s = .next s := by
  simp only [step, h, stepFaulted]

theorem stepReturn_of_faulted {s : State} {k : ErrorKind} (h : s.run = .faulted k) :
    stepReturn s = .errAgain k := by
  simp only [stepReturn, h]

/-- A running step executes the instruction it fetches (R104). -/
theorem step_of_fetchInstr_ok {s : State} {i : Instr} (hr : s.run = .running)
    (h : fetchInstr s = .ok i) : step s = exec i s := by
  simp only [step, hr, h]

theorem stepReturn_of_raises_none {s : State} {i : Instr} (hr : s.run = .running)
    (h : fetchInstr s = .ok i) (hn : raises i s = none) : stepReturn s = .ok true := by
  simp only [stepReturn, hr, h, hn]

theorem stepReturn_of_raises {s : State} {i : Instr} {e : CoreError} (hr : s.run = .running)
    (h : fetchInstr s = .ok i) (he : raises i s = some e) : stepReturn s = .err e := by
  simp only [stepReturn, hr, h, he]

/-- A step returns an error where it fetches no instruction or the instruction raises one (R107). -/
theorem stepReturn_eq_err_iff {s : State} {e : CoreError} : stepReturn s = .err e ↔
    s.run = .running ∧
      (fetchInstr s = .error e ∨ ∃ i, fetchInstr s = .ok i ∧ raises i s = some e) := by
  cases hr : s.run with
  | awaitKey r => simp [stepReturn_of_awaitKey hr]
  | faulted k => simp [stepReturn_of_faulted hr]
  | running =>
    cases hf : fetchInstr s with
    | error e' => simp [stepReturn_of_fetchInstr_error hr hf]
    | ok i =>
      cases hi : raises i s with
      | none => simp [stepReturn_of_raises_none hr hf hi, hi]
      | some e' => simp [stepReturn_of_raises hr hf hi, hi]

/-- A step that returns an error takes it (R105). -/
theorem step_of_stepReturn_err {s : State} {e : CoreError} (h : stepReturn s = .err e) :
    step s = raise e s := by
  obtain ⟨hr, hf | ⟨i, hf, hi⟩⟩ := stepReturn_eq_err_iff.mp h
  · exact step_of_fetchInstr_error hr hf
  · rw [step_of_fetchInstr_ok hr hf, exec_of_raises hi]

/-- Everything that a step can do (R100): nothing, while it awaits a key or is faulted; the fault of an
error; the effect of the fetched instruction. -/
theorem step_cases {s t : State} (h : step s = .next t) :
    (s.run ≠ .running ∧ t = s) ∨
    (∃ e, stepReturn s = .err e ∧ t = s.setRun (.faulted e.kind)) ∨
    ∃ i, s.run = .running ∧ fetchInstr s = .ok i ∧ raises i s = none ∧ t = effect i s := by
  cases hr : s.run with
  | awaitKey r =>
    rw [step_of_awaitKey hr] at h
    cases h
    exact .inl ⟨by simp, rfl⟩
  | faulted k =>
    rw [step_of_faulted hr] at h
    cases h
    exact .inl ⟨by simp, rfl⟩
  | running =>
    cases hf : fetchInstr s with
    | error e =>
      rw [step_of_fetchInstr_error hr hf] at h
      cases h
      exact .inr (.inl ⟨e, stepReturn_of_fetchInstr_error hr hf, rfl⟩)
    | ok i =>
      rw [step_of_fetchInstr_ok hr hf] at h
      obtain ⟨e, he, rfl⟩ | ⟨hn, rfl⟩ := exec_cases h
      · exact .inr (.inl ⟨e, stepReturn_of_raises hr hf he, rfl⟩)
      · exact .inr (.inr ⟨i, rfl, rfl, hn, rfl⟩)

end Sys2Proof.Machine
end

section
/-! Proofs about the execution cycle (40_cycle.md, 60_exceptions.md sections 1 to 3): the errors of a step and
the next `PC`. -/

namespace Sys2Proof.Machine

/-- Settles O4: the unknown words are those that do not decode, and the fetch of one is the error. -/
theorem unknownWordsRaiseUnknownOpcode : Obligations.UnknownWordsRaiseUnknownOpcode := by
  intro w
  refine ⟨decode_ne_ok_iff w, fun s hr hf hw => stepReturn_of_fetchInstr_error hr ?_⟩
  exact fetchInstr_eq_error_iff.mpr (.inr ⟨w, hf, (decode_ne_ok_iff w).mpr hw, rfl⟩)

/-- Settles O7: the two bytes at `PC` are the fetched word, so the step executes the instruction that they
decode to. -/
theorem stepRunsTheDecodedInstruction : Obligations.StepRunsTheDecodedInstruction := by
  intro s i hr hpc _ hbytes
  have hdecode : decode (wordOfBytes (s.readByte s.pc.toNat) (s.readByte (s.pc.toNat + 1))) = .ok i := by
    cases hw : decode (wordOfBytes (s.readByte s.pc.toNat) (s.readByte (s.pc.toNat + 1))) <;>
      simp_all [decodeBytes]
  have hfetch : fetchInstr s = .ok i := fetchInstr_eq_ok_iff.mpr ⟨_, fetch_of_le hpc, hdecode⟩
  refine ⟨step_of_fetchInstr_ok hr hfetch, ?_⟩
  cases hi : raises i s with
  | none => exact .inl ⟨rfl, stepReturn_of_raises_none hr hfetch hi⟩
  | some e => exact .inr ⟨e, rfl, stepReturn_of_raises hr hfetch hi⟩

/-- Settles O9: the step takes the error, which changes the run state alone. -/
theorem failedStepChangesOnlyTheRunState : Obligations.FailedStepChangesOnlyTheRunState := by
  intro s e h
  rw [step_of_stepReturn_err h]
  exact raise_onlyFaults e s

/-- Settles O13: an error of the fetch, or the one error that the fetched instruction can raise. -/
theorem stepErrorsExactlyWhere : Obligations.StepErrorsExactlyWhere := by
  intro s e
  rw [stepReturn_eq_err_iff, fetchInstr_eq_error_iff]
  simp only [fetchInstr_eq_ok_iff, raises_eq_some_iff]
  refine and_congr_right fun _ => ⟨?_, ?_⟩
  · rintro ((hfetch | ⟨w, hw, hnone⟩) | ⟨i, ⟨w, hw, hi⟩, hraise⟩)
    · exact .inl hfetch
    · exact .inr ⟨w, hw, .inl hnone⟩
    · refine .inr ⟨w, hw, .inr ?_⟩
      obtain ⟨rfl, h⟩ | ⟨nnn, rfl, h⟩ | ⟨x, y, n, rfl, h⟩ | ⟨x, rfl, h⟩ := hraise
      · exact .inl ⟨hi, h⟩
      · exact .inr (.inl ⟨nnn, hi, h⟩)
      · exact .inr (.inr (.inl ⟨x, y, n, hi, h⟩))
      · exact .inr (.inr (.inr ⟨x, hi, h⟩))
  · rintro (hfetch | ⟨w, hw, hnone | ⟨hi, h⟩ | ⟨nnn, hi, h⟩ | ⟨x, y, n, hi, h⟩ | ⟨x, hi, h⟩⟩)
    · exact .inl (.inl hfetch)
    · exact .inl (.inr ⟨w, hw, hnone⟩)
    · exact .inr ⟨_, ⟨w, hw, hi⟩, .inl ⟨rfl, h⟩⟩
    · exact .inr ⟨_, ⟨w, hw, hi⟩, .inr (.inl ⟨nnn, rfl, h⟩)⟩
    · exact .inr ⟨_, ⟨w, hw, hi⟩, .inr (.inr (.inl ⟨x, y, n, rfl, h⟩))⟩
    · exact .inr ⟨_, ⟨w, hw, hi⟩, .inr (.inr (.inr ⟨x, rfl, h⟩))⟩

/-! ### The next `PC` (R102) -/

/-- A skip where a fetch succeeds, as an exact integer. -/
theorem State.skipIf_pc_toNat {s : State} (hpc : s.pc.toNat ≤ 0xFFE) (c : Bool) :
    (s.skipIf c).pc.toNat = if c then s.pc.toNat + 4 else s.pc.toNat + 2 := by
  cases c with
  | true => exact pc_add_four hpc
  | false => exact pc_add_two hpc

/-- A negated skip exchanges the two targets. -/
theorem State.skipIf_not_pc_toNat {s : State} (hpc : s.pc.toNat ≤ 0xFFE) (c : Bool) :
    (s.skipIf (!c)).pc.toNat = if c then s.pc.toNat + 2 else s.pc.toNat + 4 := by
  cases c with
  | true => exact pc_add_two hpc
  | false => exact pc_add_four hpc

/-- The sum of `BNNN` does not wrap (R128). -/
theorem zext16_add_zextByte_toNat (nnn : BitVec 12) (b : Byte) :
    (zext16 nnn + zextByte b).toNat = nnn.toNat + b.toNat := by
  have hnnn := nnn.isLt
  have hb := b.isLt
  rw [BitVec.toNat_add, zext16_toNat, zextByte_toNat]
  omega

/-- The next `PC` of an instruction that raises nothing. -/
theorem effect_pc_toNat (i : Instr) {s : State} (hpc : s.pc.toNat ≤ 0xFFE) :
    (effect i s).pc.toNat = nextPCValue i s := by
  cases i with
  | jp nnn => exact zext16_toNat nnn
  | call nnn => exact zext16_toNat nnn
  | ret => rfl
  | jpV0 nnn => exact zext16_add_zextByte_toNat nnn _
  | seByte x nn => exact (State.skipIf_pc_toNat hpc _).trans (by simp [nextPCValue])
  | sneByte x nn => exact (State.skipIf_pc_toNat hpc _).trans (by simp [nextPCValue])
  | seReg x y => exact (State.skipIf_pc_toNat hpc _).trans (by simp [nextPCValue])
  | sneReg x y => exact (State.skipIf_pc_toNat hpc _).trans (by simp [nextPCValue])
  | skp x => exact State.skipIf_pc_toNat hpc _
  | sknp x => exact State.skipIf_not_pc_toNat hpc _
  | _ => exact pc_add_two hpc

/-- Settles O12: an instruction that raises nothing has its effect, and with it the next `PC` of its class. -/
theorem nextPCOfEveryClass : Obligations.NextPCOfEveryClass := by
  intro i s t hpc hn h
  rw [exec_of_raises_none hn] at h
  cases h
  exact effect_pc_toNat i hpc

/-! ### Which pieces of state an instruction may change -/

/-- A register outside `WritesReg` keeps its value (R22). -/
theorem effect_getV {i : Instr} {r : RegIdx} (h : ¬ WritesReg i r) (s : State) :
    (effect i s).getV r = s.getV r := by
  cases i with
  | loadRegs x =>
    have hout : ¬ r.val < transferCount s.i.toNat x := fun hlt => h ((lt_transferCount _ x r).mp hlt).left
    simp only [effect, State.advance_getV, State.setI_getV, State.getV_setRegs, putRegs_readBytes_get,
      if_neg hout]
  | _ => simp_all [effect, WritesReg, State.writeThenFlag, State.flagThenWrite, State.clearScreen]

theorem effect_cfg (i : Instr) (s : State) : (effect i s).cfg = s.cfg := by
  cases i <;> rfl

theorem effect_keys (i : Instr) (s : State) : (effect i s).keys = s.keys := by
  cases i <;> rfl

theorem effect_i_ne {i : Instr} {s : State} (h : (effect i s).i ≠ s.i) : (∃ nnn, i = .ldI nnn) ∨
    ∃ x, i = .addI x ∨ i = .ldF x ∨ i = .storeRegs x ∨ i = .loadRegs x := by
  cases i with
  | ldI nnn => exact .inl ⟨nnn, rfl⟩
  | addI x => exact .inr ⟨x, .inl rfl⟩
  | ldF x => exact .inr ⟨x, .inr (.inl rfl)⟩
  | storeRegs x => exact .inr ⟨x, .inr (.inr (.inl rfl))⟩
  | loadRegs x => exact .inr ⟨x, .inr (.inr (.inr rfl))⟩
  | _ => exact absurd rfl h

theorem effect_dt_ne {i : Instr} {s : State} (h : (effect i s).dt ≠ s.dt) : ∃ x, i = .ldDTVx x := by
  cases i with
  | ldDTVx x => exact ⟨x, rfl⟩
  | _ => exact absurd rfl h

theorem effect_st_ne {i : Instr} {s : State} (h : (effect i s).st ≠ s.st) : ∃ x, i = .ldSTVx x := by
  cases i with
  | ldSTVx x => exact ⟨x, rfl⟩
  | _ => exact absurd rfl h

theorem effect_stack_ne {i : Instr} {s : State} (h : (effect i s).stack ≠ s.stack) :
    i = .ret ∨ ∃ nnn, i = .call nnn := by
  cases i with
  | ret => exact .inl rfl
  | call nnn => exact .inr ⟨nnn, rfl⟩
  | _ => exact absurd rfl h

theorem effect_run_ne {i : Instr} {s : State} (h : (effect i s).run ≠ s.run) : ∃ x, i = .ldVxK x := by
  cases i with
  | ldVxK x => exact ⟨x, rfl⟩
  | _ => exact absurd rfl h

theorem effect_fb_ne {i : Instr} {s : State} (h : (effect i s).fb ≠ s.fb) :
    i = .cls ∨ ∃ x y n, i = .drw x y n := by
  cases i with
  | cls => exact .inl rfl
  | drw x y n => exact .inr ⟨x, y, n, rfl⟩
  | _ => exact absurd rfl h

theorem effect_mem_ne {i : Instr} {s : State} (h : (effect i s).mem ≠ s.mem) :
    ∃ x, i = .ldB x ∨ i = .storeRegs x := by
  cases i with
  | ldB x => exact ⟨x, .inl rfl⟩
  | storeRegs x => exact ⟨x, .inr rfl⟩
  | _ => exact absurd rfl h

theorem effect_draws_ne {i : Instr} {s : State} (h : (effect i s).draws ≠ s.draws) :
    ∃ x nn, i = .rnd x nn := by
  cases i with
  | rnd x nn => exact ⟨x, nn, rfl⟩
  | _ => exact absurd rfl h

/-- Settles O58: an error changes the run state alone, and an effect each piece of state for its own
instructions only. -/
theorem writersOfEveryPieceOfState : Obligations.WritersOfEveryPieceOfState := by
  intro i s t h
  obtain ⟨e, he, rfl⟩ | ⟨-, rfl⟩ := exec_cases h
  · simp [he]
  · exact ⟨effect_cfg i s, effect_keys i s, fun r hr => not_not.mp fun hw => hr (effect_getV hw s),
      effect_i_ne, effect_dt_ne, effect_st_ne, effect_stack_ne, fun hr => .inl (effect_run_ne hr),
      effect_fb_ne, effect_mem_ne, effect_draws_ne⟩

/-! ### `ST` is never read (R29) -/

theorem raises_setST (i : Instr) (s : State) (b : Byte) : raises i (s.setST b) = raises i s := by
  cases i with
  | ldB x => rw [raises_ldB, raises_ldB, State.setST_i]
  | _ => rfl

/-- Settles O59: `ST` decides no error, and every effect but that of `LD ST, Vx`, which overwrites it, leaves
it to pass through. -/
theorem soundTimerIsNeverRead : Obligations.SoundTimerIsNeverRead := by
  intro i s b
  cases he : raises i s with
  | some e => exact ⟨_, exec_of_raises he, .inl (exec_of_raises ((raises_setST i s b).trans he))⟩
  | none =>
    refine ⟨_, exec_of_raises_none he, ?_⟩
    rw [exec_of_raises_none ((raises_setST i s b).trans he)]
    cases i with
    | ldSTVx x => exact .inr ⟨⟨x, rfl⟩, rfl⟩
    | _ => exact .inl rfl

end Sys2Proof.Machine
end

section
/-! Proofs about control transfer (41_control_flow.md): the call stack, the skips on a register and the
computed jump. -/

namespace Sys2Proof.Machine

/-! ### The call stack (R121, R123) -/

theorem exec_ret {s : State} {rest : List Word} {a : Word} (h : s.stack = rest ++ [a]) :
    exec .ret s = .next ((s.setStack rest).setPC a) := by
  rw [exec_of_raises_none (by simp [raises_ret, h])]
  simp [effect, h]

theorem exec_call {s : State} (nnn : BitVec 12) (h : s.stack.length < 16) :
    exec (.call nnn) s = .next ((s.setStack (s.stack ++ [s.pc + 2#16])).setPC (zext16 nnn)) :=
  exec_of_raises_none (by rw [raises_call, if_neg (by omega)])

/-- Settles O14: a popped entry is one of the stack's, so the invariant bounds it. -/
theorem retPopsTheLastEntry : Obligations.RetPopsTheLastEntry := by
  intro s
  refine ⟨fun rest a h => ?_, fun h => ?_⟩
  · refine ⟨_, exec_ret h, rfl, rfl, rfl, fun _ => rfl, fun _ => rfl, fun hinv => ?_⟩
    exact hinv.returns a (by simp [h])
  · have hraise : raises .ret s = some (.stackUnderflow s.pc.toNat) := by rw [raises_ret, if_pos h]
    exact ⟨hraise, exec_onlyFaults hraise⟩

/-- Settles O16: below 16 entries the call pushes and jumps, from 16 on it raises. -/
theorem callPushesTheReturnAddress : Obligations.CallPushesTheReturnAddress := by
  intro nnn s
  refine ⟨fun h => ?_, fun h => ?_⟩
  · exact ⟨_, exec_call nnn h, rfl, zext16_toNat nnn, rfl, fun _ => rfl, fun _ => rfl⟩
  · have hraise : raises (.call nnn) s = some (.stackOverflow s.pc.toNat) := by
      rw [raises_call, if_pos h]
    exact ⟨hraise, exec_onlyFaults hraise⟩

/-- Settles O17: the return takes off the entry that the call pushed. -/
theorem callThenRetReturnsPastTheCall : Obligations.CallThenRetReturnsPastTheCall := by
  intro nnn s h
  exact ⟨_, _, exec_call nnn h, exec_ret rfl, rfl⟩

/-! ### Skips and the computed jump (R126 to R128) -/

theorem exec_seReg (x y : RegIdx) (s : State) :
    exec (.seReg x y) s = .next (s.skipIf (decide (s.getV x = s.getV y))) := rfl

theorem exec_sneReg (x y : RegIdx) (s : State) :
    exec (.sneReg x y) s = .next (s.skipIf (decide (s.getV x ≠ s.getV y))) := rfl

theorem exec_jpV0 (nnn : BitVec 12) (s : State) :
    exec (.jpV0 nnn) s = .next (s.setPC (zext16 nnn + zextByte (s.getV 0))) := rfl

/-- Settles O19: both are skips, under `V[x] = V[y]` and under its negation; with `x = y` the first condition
holds and the second does not. -/
theorem skipsOnARegister : Obligations.SkipsOnARegister := by
  intro x y s
  refine ⟨⟨_, exec_seReg x y s, s.skipIf_decide_pc _, s.skipIf_frame _, ?_⟩,
    ⟨_, exec_sneReg x y s, s.skipIf_decide_pc _, s.skipIf_frame _, ?_⟩⟩ <;>
    rintro rfl
  · rw [State.skipIf_decide_pc, if_pos rfl]
  · rw [State.skipIf_decide_pc, if_neg (not_not.mpr rfl)]

/-- Settles O20: the sum does not wrap, so from `0xFFF` on the next fetch is outside memory. -/
theorem jpV0AddsV0 : Obligations.JpV0AddsV0 := by
  intro nnn s
  have hsum := zext16_add_zextByte_toNat nnn (s.getV 0)
  exact ⟨_, exec_jpV0 nnn s, hsum, s.setPC_frame _, fun htop => fetch_of_ge (htop.trans_eq hsum.symm)⟩

end Sys2Proof.Machine
end

section
/-! Proofs about arithmetic with a flag and the random draw (42_alu.md). -/

namespace Sys2Proof.Machine

/-! ### A result and its flag, in both orders of writing (R106) -/

theorem State.writeThenFlag_frame (s : State) (x : RegIdx) (result flag : Byte) :
    RegFrame (fun r => r = x ∨ r = vf) s (s.writeThenFlag x result flag).advance :=
  (((RegFrame.refl _ s).setV (.inl rfl) result).setV (.inr rfl) flag).advance

theorem State.flagThenWrite_frame (s : State) (x : RegIdx) (result flag : Byte) :
    RegFrame (fun r => r = x ∨ r = vf) s (s.flagThenWrite x result flag).advance :=
  (((RegFrame.refl _ s).setV (.inr rfl) flag).setV (.inl rfl) result).advance

/-- The flag is written last, so it stays in `VF` for every `x`. -/
theorem State.writeThenFlag_getV_vf (s : State) (x : RegIdx) (result flag : Byte) :
    (s.writeThenFlag x result flag).advance.getV vf = flag :=
  (s.setV x result).setV_advance_getV vf flag

theorem State.writeThenFlag_getV (s : State) {x : RegIdx} (hx : x ≠ vf) (result flag : Byte) :
    (s.writeThenFlag x result flag).advance.getV x = result := by
  rw [State.writeThenFlag, State.advance_getV, State.getV_setV, if_neg hx, State.getV_setV, if_pos rfl]

/-- The result is written last, so it stays in `V[x]` for every `x`. -/
theorem State.flagThenWrite_getV (s : State) (x : RegIdx) (result flag : Byte) :
    (s.flagThenWrite x result flag).advance.getV x = result :=
  (s.setV vf flag).setV_advance_getV x result

theorem State.flagThenWrite_getV_vf (s : State) {x : RegIdx} (hx : x ≠ vf) (result flag : Byte) :
    (s.flagThenWrite x result flag).advance.getV vf = flag := by
  rw [State.flagThenWrite, State.advance_getV, State.getV_setV, if_neg hx.symm, State.getV_setV, if_pos rfl]

/-! ### The values as numbers -/

theorem flagByte_decide_toNat (p : Prop) [Decidable p] :
    (flagByte (decide p)).toNat = if p then 1 else 0 := by
  unfold flagByte
  split_ifs <;> simp_all

theorem lowBitFlag_toNat (b : Byte) : (lowBitFlag b).toNat = b.toNat % 2 := by
  rw [lowBitFlag, BitVec.toNat_and]
  exact Nat.and_one_is_mod b.toNat

theorem highBitFlag_toNat (b : Byte) : (highBitFlag b).toNat = b.toNat / 128 := by
  have hb := b.isLt
  have hone : (b >>> 7 &&& 1).toNat = (b >>> 7).toNat % 2 := lowBitFlag_toNat (b >>> 7)
  rw [highBitFlag, hone, BitVec.toNat_ushiftRight, Nat.shiftRight_eq_div_pow]
  omega

/-- The difference of two bytes is their difference modulo 256. -/
theorem sub_toNat_eq_emod (a b : Byte) : ((a - b).toNat : Int) = ((a.toNat : Int) - b.toNat) % 256 := by
  have ha := a.isLt
  have hb := b.isLt
  rw [BitVec.toNat_sub]
  omega

/-! ### The meanings -/

theorem exec_addReg (x y : RegIdx) (s : State) : exec (.addReg x y) s =
    .next (s.writeThenFlag x (s.getV x + s.getV y) (carryFlag (s.getV x) (s.getV y))).advance := rfl

theorem exec_subReg (x y : RegIdx) (s : State) : exec (.subReg x y) s =
    .next (s.writeThenFlag x (s.getV x - s.getV y) (noBorrowFlag (s.getV x) (s.getV y))).advance := rfl

theorem exec_subn (x y : RegIdx) (s : State) : exec (.subn x y) s =
    .next (s.writeThenFlag x (s.getV y - s.getV x) (noBorrowFlag (s.getV y) (s.getV x))).advance := rfl

theorem exec_shr (x y : RegIdx) (s : State) : exec (.shr x y) s =
    .next (s.flagThenWrite x (s.getV y >>> 1) (lowBitFlag (s.getV y))).advance := rfl

theorem exec_shl (x y : RegIdx) (s : State) : exec (.shl x y) s =
    .next (s.flagThenWrite x (s.getV y <<< 1) (highBitFlag (s.getV y))).advance := rfl

theorem exec_rnd (x : RegIdx) (nn : Byte) (s : State) :
    exec (.rnd x nn) s = .next (s.afterDraw.setV x (s.rndByte &&& nn)).advance := rfl

/-- Settles O24: the sum, then the carry. -/
theorem addRegSetsSumAndCarry : Obligations.AddRegSetsSumAndCarry := by
  intro x y s
  refine ⟨_, exec_addReg x y s, fun hx => ?_, ?_, s.writeThenFlag_frame x _ _⟩
  · rw [s.writeThenFlag_getV hx, BitVec.toNat_add]
  · rw [State.writeThenFlag_getV_vf]
    exact flagByte_decide_toNat _

/-- A difference, then its no-borrow: the shape of `SUB` and `SUBN`. -/
theorem writeThenFlag_sub_noBorrow (s : State) (x : RegIdx) (a b : Byte) {t : State}
    (ht : t = (s.writeThenFlag x (a - b) (noBorrowFlag a b)).advance) :
    (x ≠ vf → ((t.getV x).toNat : Int) = (a.toNat - b.toNat : Int) % 256) ∧
      (t.getV vf).toNat = (if b.toNat ≤ a.toNat then 1 else 0) ∧
      RegFrame (fun r => r = x ∨ r = vf) s t := by
  subst ht
  refine ⟨fun hx => ?_, ?_, s.writeThenFlag_frame x _ _⟩
  · rw [s.writeThenFlag_getV hx, sub_toNat_eq_emod]
  · rw [State.writeThenFlag_getV_vf]
    exact flagByte_decide_toNat _

/-- Settles O25: `Vx - Vy`, then its no-borrow. -/
theorem subRegSetsDifferenceAndNoBorrow : Obligations.SubRegSetsDifferenceAndNoBorrow := fun x y s =>
  ⟨_, exec_subReg x y s, writeThenFlag_sub_noBorrow s x (s.getV x) (s.getV y) rfl⟩

/-- Settles O26: `Vy - Vx`, then its no-borrow. -/
theorem subnSetsReversedDifferenceAndNoBorrow : Obligations.SubnSetsReversedDifferenceAndNoBorrow :=
  fun x y s => ⟨_, exec_subn x y s, writeThenFlag_sub_noBorrow s x (s.getV y) (s.getV x) rfl⟩

/-- Settles O27: the low bit, then the half. -/
theorem shrHalvesVy : Obligations.ShrHalvesVy := by
  intro x y s
  refine ⟨_, exec_shr x y s, ?_, fun hx => ?_, s.flagThenWrite_frame x _ _⟩
  · rw [State.flagThenWrite_getV, BitVec.toNat_ushiftRight, Nat.shiftRight_eq_div_pow, pow_one]
  · rw [s.flagThenWrite_getV_vf hx, lowBitFlag_toNat]

/-- Settles O28: the high bit, then the double. -/
theorem shlDoublesVy : Obligations.ShlDoublesVy := by
  intro x y s
  refine ⟨_, exec_shl x y s, ?_, fun hx => ?_, s.flagThenWrite_frame x _ _⟩
  · rw [State.flagThenWrite_getV, BitVec.toNat_shiftLeft, Nat.shiftLeft_eq, pow_one, Nat.mul_comm]
  · rw [s.flagThenWrite_getV_vf hx, highBitFlag_toNat]

/-- Settles O29: the byte of the next draw, whatever it is, meets the mask bit by bit. -/
theorem rndMasksOneDraw : Obligations.RndMasksOneDraw := by
  intro x nn s
  refine ⟨_, exec_rnd x nn s, fun k => ?_, ?_, ?_, rfl, rfl, fun r hr => ?_, fun _ => rfl⟩
  · rw [State.setV_advance_getV]
    exact BitVec.getLsbD_and
  · rintro rfl
    rw [State.setV_advance_getV]
    exact BitVec.and_zero
  · rintro rfl
    rw [State.setV_advance_getV]
    exact BitVec.and_allOnes
  · rw [State.advance_getV, State.getV_setV, if_neg hr, State.afterDraw_getV]

end Sys2Proof.Machine
end

section
/-! Proofs about the index register and memory transfer (43_index_memory.md). -/

namespace Sys2Proof.Machine

theorem glyphAddress_toNat (b : Byte) : (glyphAddress b).toNat = 5 * b.toNat := by
  have hb := b.isLt
  rw [glyphAddress, BitVec.toNat_ofNat]
  omega

theorem exec_addI (x : RegIdx) (s : State) :
    exec (.addI x) s = .next (s.setI (s.i + zextByte (s.getV x))).advance := rfl

theorem exec_ldF (x : RegIdx) (s : State) :
    exec (.ldF x) s = .next (s.setI (glyphAddress (s.getV x))).advance := rfl

theorem exec_ldB {s : State} (x : RegIdx) (h : s.i.toNat + 3 ≤ 4096) : exec (.ldB x) s =
    .next (s.setMem (Memory.writeBytes s.cfg.font s.mem s.i.toNat (bcdDigits (s.getV x)))).advance :=
  exec_of_raises_none (by rw [raises_ldB, if_neg (by omega)])

/-- Settles O31: a 16-bit sum wraps at 65536, and five times a byte does not wrap. -/
theorem addIAndLdFComputeTheIndex : Obligations.AddIAndLdFComputeTheIndex := by
  intro x s
  refine ⟨⟨_, exec_addI x s, ?_, s.setI_advance_frame _⟩,
    ⟨_, exec_ldF x s, glyphAddress_toNat _, s.setI_advance_frame _⟩⟩
  rw [State.advance_i, State.setI_i, BitVec.toNat_add, zextByte_toNat]

/-- The bytes of memory after the decimal digits are written at `I` (R175). -/
theorem readByte_bcdDigits {s : State} (hm : Memory.wf s.cfg.font s.mem) (b : Byte) (a c : Nat) :
    (s.setMem (Memory.writeBytes s.cfg.font s.mem a (bcdDigits b))).readByte c =
      if a ≤ c ∧ c < a + 3 then (bcdDigits b).getD (c - a) 0 else s.readByte c :=
  s.readByte_setMem_writeBytes a _ c hm

/-- Settles O32: three bytes are written at `I`, each digit below 256; with one of them outside memory the
instruction raises. -/
theorem ldBStoresTheDecimalDigits : Obligations.LdBStoresTheDecimalDigits := by
  intro x s hm
  have hb := (s.getV x).isLt
  refine ⟨fun h => ⟨_, exec_ldB x h, ?_, ?_, ?_, fun a ha => ?_, rfl, fun _ => rfl⟩, fun h => ?_⟩
  · rw [State.advance_readByte, readByte_bcdDigits hm, if_pos (by omega), Nat.sub_self]
    exact Nat.mod_eq_of_lt (by omega)
  · rw [State.advance_readByte, readByte_bcdDigits hm, if_pos (by omega), Nat.add_sub_cancel_left]
    exact Nat.mod_eq_of_lt (by omega)
  · rw [State.advance_readByte, readByte_bcdDigits hm, if_pos (by omega), Nat.add_sub_cancel_left]
    exact Nat.mod_eq_of_lt (by omega)
  · rw [State.advance_readByte, readByte_bcdDigits hm, if_neg (by omega)]
  · have hraise : raises (.ldB x) s = some (.outOfRange s.i.toNat) := by rw [raises_ldB, if_pos h]
    exact ⟨hraise, exec_onlyFaults hraise⟩

/-- Settles O35: the load reads, at each register's address, the byte that the store put there. -/
theorem storedRegistersLoadBack : Obligations.StoredRegistersLoadBack := by
  intro x s v hm
  refine ⟨_, _, exec_storeRegs x s, exec_loadRegs x _, fun r hr hex => ?_, rfl⟩
  have hlt := (lt_transferCount _ x r).mpr ⟨hr, hex⟩
  rw [State.advance_getV, State.setI_getV, State.getV_setRegs, putRegs_readBytes_get]
  exact (if_pos hlt).trans (State.readByte_setMem_firstRegs hm _ (transferCount_le _ x) hlt)

end Sys2Proof.Machine
end

section
/-! Proofs about the framebuffer instructions (44_display.md). -/

namespace Sys2Proof.Machine

theorem exec_cls (s : State) : exec .cls s = .next s.clearScreen.advance := rfl

/-- Settles O36: the framebuffer becomes the blank one, whose pixels are off. -/
theorem clsTurnsEveryPixelOff : Obligations.ClsTurnsEveryPixelOff := by
  intro s
  exact ⟨_, exec_cls s, fun px py => Framebuffer.pixel_blank _ _ px py _ _, rfl, fun _ => rfl,
    fun _ => rfl⟩

/-! ### A draw inside memory -/

theorem exec_drw {s : State} (x y : RegIdx) {n : BitVec 4} (h : s.i.toNat + n.toNat ≤ 4096) :
    exec (.drw x y n) s = .next (effect (.drw x y n) s) :=
  exec_of_raises_none (by rw [raises_drw, if_neg (by omega)])

/-- Each pixel is toggled by the parity of the sprite bits that fall on it. -/
theorem effect_drw_pixel {s : State} (hc : s.cfg.wf = true)
    (hf : Framebuffer.wf s.cfg.width s.cfg.height s.fb) (x y : RegIdx) (n : BitVec 4) {px py : Nat}
    (hx : px < s.cfg.width) (hy : py < s.cfg.height) : (effect (.drw x y n) s).pixel px py =
      (s.pixel px py ^^ decide (spriteHits s x y n.toNat px py % 2 = 1)) := by
  obtain ⟨hw, hh⟩ := Config.one_le_size_of_wf hc
  rw [← hitsAt_sprite]
  exact (congrArg (fun d => Framebuffer.pixel _ _ d.1 px py) (drawRows_eq_xorPoints _ _ _ _ _ _)).trans
    (pixel_xorPoints (d := (s.fb, false)) hw hh hx hy _ hf)

/-- A draw collides where a sprite bit falls on a lit pixel or two fall on one. -/
theorem drawn_collides_iff {s : State} (hc : s.cfg.wf = true)
    (hf : Framebuffer.wf s.cfg.width s.cfg.height s.fb) (x y : RegIdx) (n : BitVec 4) :
    (s.drawn x y n).2 = true ↔ ∃ px py, px < s.cfg.width ∧ py < s.cfg.height ∧
      ((s.pixel px py = true ∧ 1 ≤ spriteHits s x y n.toNat px py) ∨
        2 ≤ spriteHits s x y n.toNat px py) := by
  obtain ⟨hw, hh⟩ := Config.one_le_size_of_wf hc
  rw [State.drawn, drawRows_eq_xorPoints, flag_xorPoints (d := (s.fb, false)) hw hh _ hf]
  simp only [Bool.false_eq_true, false_or, hitsAt_sprite, State.pixel]

/-- The flag of a draw is its collision. -/
theorem effect_drw_getV_vf (s : State) (x y : RegIdx) (n : BitVec 4) :
    (effect (.drw x y n) s).getV vf = flagByte (s.drawn x y n).2 :=
  State.setV_advance_getV _ vf _

theorem effect_drw_getV (s : State) (x y : RegIdx) (n : BitVec 4) {r : RegIdx} (hr : r ≠ vf) :
    (effect (.drw x y n) s).getV r = s.getV r :=
  effect_getV (i := .drw x y n) hr s

theorem effect_drw_fb_wf {s : State} (hf : Framebuffer.wf s.cfg.width s.cfg.height s.fb) (x y : RegIdx)
    (n : BitVec 4) : Framebuffer.wf s.cfg.width s.cfg.height (effect (.drw x y n) s).fb :=
  drawRows_wf hf _ _ _ _

/-- A draw leaves the sprite and its place as they were, unless `VF` is a coordinate. -/
theorem spriteHits_effect_drw (s : State) {x y : RegIdx} (hx : x ≠ vf) (hy : y ≠ vf) (n : BitVec 4)
    (px py : Nat) :
    spriteHits (effect (.drw x y n) s) x y n.toNat px py = spriteHits s x y n.toNat px py := by
  simp only [spriteHits, effect_drw_getV s x y n hx, effect_drw_getV s x y n hy]
  rfl

/-- Settles O38: the parity of the hits at each pixel, and `VF` as the one register written. -/
theorem drwTogglesTheHitPixels : Obligations.DrwTogglesTheHitPixels := by
  intro x y n s hc hf h
  exact ⟨_, exec_drw x y h, fun px py hx hy => effect_drw_pixel hc hf x y n hx hy, rfl,
    fun r hr => effect_drw_getV s x y n hr, fun _ => rfl⟩

/-- Settles O39: a draw that collides has such a pixel, and one that does not has none. -/
theorem drwSetsTheCollisionFlag : Obligations.DrwSetsTheCollisionFlag := by
  intro x y n s hc hf h
  refine ⟨_, exec_drw x y h, ?_⟩
  rw [effect_drw_getV_vf]
  have hcollides := drawn_collides_iff hc hf x y n
  cases hd : (s.drawn x y n).2 with
  | true => exact .inl ⟨rfl, hcollides.mp hd⟩
  | false =>
    refine .inr ⟨rfl, fun px py hx hy => ?_⟩
    have hnone : ¬ ((s.pixel px py = true ∧ 1 ≤ spriteHits s x y n.toNat px py) ∨
        2 ≤ spriteHits s x y n.toNat px py) := fun hhit =>
      Bool.false_ne_true (hd.symm.trans (hcollides.mpr ⟨px, py, hx, hy, hhit⟩))
    obtain ⟨hlit, htwice⟩ := not_or.mp hnone
    exact ⟨by omega, fun hon => Nat.lt_one_iff.mp (Nat.lt_of_not_le fun hone => hlit ⟨hon, hone⟩)⟩

/-- Settles O40: a sprite outside memory is the error and no draw; a sprite of no rows has no bits. -/
theorem drwOutsideMemoryDrawsNothing : Obligations.DrwOutsideMemoryDrawsNothing := by
  intro x y n s
  refine ⟨fun h => ?_, ?_⟩
  · have hraise : raises (.drw x y n) s = some (.outOfRange s.i.toNat) := by rw [raises_drw, if_pos h]
    obtain ⟨t, ht, hfault⟩ := exec_onlyFaults hraise
    refine ⟨hraise, t, ht, hfault, fun px py => ?_⟩
    rw [hfault.left]
    rfl
  · rintro rfl hi
    exact ⟨_, exec_drw x y hi, rfl, effect_drw_getV_vf s x y 0⟩

/-- Settles O41: both draws toggle each pixel by the same parity. -/
theorem drawingTwiceRestoresTheScreen : Obligations.DrawingTwiceRestoresTheScreen := by
  intro x y n s hc hf h hx hy
  refine ⟨_, _, exec_drw x y h, exec_drw (s := effect (.drw x y n) s) x y h, fun px py => ?_⟩
  obtain ⟨hw, hh⟩ := Config.one_le_size_of_wf hc
  have hpx : px % s.cfg.width < s.cfg.width := Nat.mod_lt _ hw
  have hpy : py % s.cfg.height < s.cfg.height := Nat.mod_lt _ hh
  have hsecond := effect_drw_pixel (s := effect (.drw x y n) s) hc (effect_drw_fb_wf hf x y n) x y n hpx hpy
  have hfirst := effect_drw_pixel hc hf x y n hpx hpy
  rw [spriteHits_effect_drw s hx hy, hfirst, Bool.xor_assoc, Bool.xor_self, Bool.xor_false] at hsecond
  rw [← State.pixel_mod, ← s.pixel_mod]
  exact hsecond

end Sys2Proof.Machine
end

section
/-! Proofs about the keypad and the timers (45_keypad_timers.md, 60_exceptions.md sections 4 and 5). -/

namespace Sys2Proof.Machine

theorem exec_skp (x : RegIdx) (s : State) :
    exec (.skp x) s = .next (s.skipIf (s.isKeyPressed (s.getV x).toNat)) := rfl

theorem exec_sknp (x : RegIdx) (s : State) :
    exec (.sknp x) s = .next (s.skipIf (!s.isKeyPressed (s.getV x).toNat)) := rfl

theorem exec_ldVxK (x : RegIdx) (s : State) :
    exec (.ldVxK x) s = .next (s.setRun (.awaitKey x)).advance := rfl

/-- A negated skip exchanges the two targets. -/
theorem State.skipIf_not_pc (s : State) (c : Bool) :
    (s.skipIf (!c)).pc = if c = true then s.pc + 2#16 else s.pc + 4#16 := by
  cases c <;> rfl

/-- Settles O42: `k` is the key that `V[x]` names. -/
theorem keySkipsReadTheKeypad : Obligations.KeySkipsReadTheKeypad := by
  intro x k s hk
  obtain rfl : k = keyOf (s.getV x).toNat := Fin.ext hk
  exact ⟨⟨_, exec_skp x s, s.skipIf_pc _, s.skipIf_frame _⟩,
    ⟨_, exec_sknp x s, s.skipIf_not_pc _, s.skipIf_frame _⟩⟩

/-! ### A press and the wait that it resolves (R238) -/

theorem resolveWait_of_awaitKey {s : State} {r : RegIdx} (key : Fin 16) (h : s.run = .awaitKey r) :
    resolveWait key s = (s.setV r (BitVec.ofNat 8 key.val)).setRun .running := by
  simp only [resolveWait, h]

theorem resolveWait_of_not_awaitKey {s : State} (key : Fin 16) (h : ∀ r, s.run ≠ .awaitKey r) :
    resolveWait key s = s := by
  unfold resolveWait
  split
  case h_1 r hr => exact absurd hr (h r)
  case h_2 => rfl
  case h_3 => rfl

/-- A legal key code (R239) is not refused: its press sets the flag and resolves a wait. -/
theorem hostCall_pressKey (key : Fin 16) (s : State) :
    hostCall (.pressKey key.val) s = .next (resolveWait key (s.setKey key true)) := by
  have legal : (HostCall.pressKey key.val).wf = true := decide_eq_true key.isLt
  rw [hostCall, pressKey, if_pos legal, keyOf_val]

theorem key_toNat (key : Fin 16) : (BitVec.ofNat 8 key.val).toNat = key.val :=
  Nat.mod_eq_of_lt (key.isLt.trans (by decide))

/-- Settles O44: the wait is the run state alone, so steps idle, and a press writes the key's code. -/
theorem blockingKeyReadWaitsForAPress : Obligations.BlockingKeyReadWaitsForAPress := by
  intro x key s hkey
  have hpress := hostCall_pressKey ⟨key, hkey⟩ (s.setRun (.awaitKey x)).advance
  rw [resolveWait_of_awaitKey (r := x) _ rfl] at hpress
  refine ⟨_, _, exec_ldVxK x s, rfl, rfl, rfl, fun _ => rfl, fun _ => rfl, step_of_awaitKey rfl, hpress,
    rfl, ?_, rfl⟩
  rw [State.setRun_getV, State.getV_setV, if_pos rfl, key_toNat]

/-- Settles O47: the flag is set before the wait is looked at, and resolving it writes one register. -/
theorem pressKeySetsItsFlagAndResolvesAWait : Obligations.PressKeySetsItsFlagAndResolvesAWait := by
  intro s key
  refine ⟨_, hostCall_pressKey key s, ?_⟩
  by_cases hwait : ∃ r, s.run = .awaitKey r
  · obtain ⟨r, hr⟩ := hwait
    rw [resolveWait_of_awaitKey (s := s.setKey key true) key hr]
    refine ⟨s.setKey_keys_get key true, .inl ⟨r, hr, rfl, ?_, rfl, fun q hq => ?_⟩⟩
    · rw [State.setRun_getV, State.getV_setV, if_pos rfl, key_toNat]
    · rw [State.setRun_getV, State.getV_setV, if_neg hq, State.setKey_getV]
  · have hno := not_exists.mp hwait
    rw [resolveWait_of_not_awaitKey (s := s.setKey key true) key hno]
    exact ⟨s.setKey_keys_get key true, .inr ⟨hno, rfl⟩⟩

/-! ### The timers (R236) -/

/-- One tick of a timer byte saturates at 0. -/
theorem saturating_decrement_toNat (b : Byte) : (if b = 0 then 0 else b - 1).toNat = b.toNat - 1 := by
  have hb := b.isLt
  split
  case isTrue h => simp [h]
  case isFalse h =>
    have hpos : b.toNat ≠ 0 := fun h0 => h (BitVec.eq_of_toNat_eq h0)
    rw [BitVec.toNat_sub]
    simp
    omega

theorem tick_dt_toNat (s : State) : (tick s).dt.toNat = s.dt.toNat - 1 := saturating_decrement_toNat s.dt

theorem tick_st_toNat (s : State) : (tick s).st.toNat = s.st.toNat - 1 := saturating_decrement_toNat s.st

/-- Settles O45: each timer takes its saturating decrement, in whatever run state. -/
theorem tickSaturatesAtZero : Obligations.TickSaturatesAtZero := fun s =>
  ⟨tick_dt_toNat s, tick_st_toNat s, rfl, rfl⟩

end Sys2Proof.Machine
end

section
/-! Proofs about memory and its accesses (20_memory.md sections 1 and 3). -/

namespace Sys2Proof.Machine

/-- A byte read after a byte write. -/
theorem State.readByte_writeByte {s : State} (hm : Memory.wf s.cfg.font s.mem) (a : Nat) (b : Byte)
    (c : Nat) : (s.writeByte a b).readByte c = if c = a then b else s.readByte c :=
  Memory.read_write s.cfg.font s.mem a c b hm.left

theorem State.peek_of_le (s : State) {a : Nat} (h : a ≤ 0xFFF) : s.peek a = .ok (s.readByte a) :=
  if_pos (decide_eq_true h)

theorem State.peek_of_gt (s : State) {a : Nat} (h : 0xFFF < a) : s.peek a = .error (.outOfRange a) :=
  if_neg (by simp [inRange, h])

theorem State.poke_of_le (s : State) {a : Nat} (b : Byte) (h : a ≤ 0xFFF) :
    s.poke a b = .ok (s.writeByte a b) :=
  if_pos (decide_eq_true h)

theorem State.poke_of_gt (s : State) {a : Nat} (b : Byte) (h : 0xFFF < a) :
    s.poke a b = .error (.outOfRange a) :=
  if_neg (by simp [inRange, h])

theorem State.load_of_le (s : State) {a : Nat} {bytes : List Byte} (h : a + bytes.length ≤ 4096) :
    s.load a bytes = .ok (s.setMem (Memory.writeBytes s.cfg.font s.mem a bytes)) := by
  obtain ⟨-, hload⟩ | ⟨hlen, -⟩ := s.load_cases a bytes
  · exact hload
  · omega

theorem State.load_of_gt (s : State) {a : Nat} {bytes : List Byte} (h : 4096 < a + bytes.length) :
    s.load a bytes = .error (.outOfRange a) := by
  obtain ⟨hlen, -⟩ | ⟨-, hload⟩ := s.load_cases a bytes
  · omega
  · exact hload

/-- A run of bytes, loaded, reads back byte by byte. -/
theorem State.readByte_loaded {s : State} (hm : Memory.wf s.cfg.font s.mem) (a : Nat)
    {bytes : List Byte} {k : Nat} (hk : k < bytes.length) :
    (s.setMem (Memory.writeBytes s.cfg.font s.mem a bytes)).readByte (a + k) = bytes.getD k 0 := by
  rw [s.readByte_setMem_writeBytes a bytes _ hm, if_pos (by omega), Nat.add_sub_cancel_left]

/-- A program that fits is loaded from `0x200` on (R263). -/
theorem hostCall_loadProgram (s : State) {bytes : List Byte} (h : bytes.length ≤ 3584) :
    hostCall (.loadProgram bytes) s =
      .next (s.setMem (Memory.writeBytes s.cfg.font s.mem 0x200 bytes)) := by
  have hload : loadProgram bytes s = .ok _ := s.load_of_le (a := 0x200) (by omega)
  simp only [hostCall, hload]

theorem loadProgram_of_gt (s : State) {bytes : List Byte} (h : 3584 < bytes.length) :
    loadProgram bytes s = .error (.outOfRange 0x200) :=
  s.load_of_gt (a := 0x200) (by omega)

/-- Settles O48: the bound is on the whole run, and `load_program` has 3584 bytes above `0x200`. -/
theorem loadIsAtomic : Obligations.LoadIsAtomic := by
  intro s a bytes hm
  refine ⟨fun h => ⟨_, s.load_of_gt h, rfl⟩, fun h => ?_, fun h => ?_, fun h => ?_⟩
  · refine ⟨_, s.load_of_le h, rfl, fun k hk => State.readByte_loaded hm a hk, fun c hc => ?_⟩
    rw [s.readByte_setMem_writeBytes a bytes c hm, if_neg (by omega)]
  · exact ⟨_, s.load_of_le (by omega), hostCall_loadProgram s h⟩
  · have hload := loadProgram_of_gt s h
    exact ⟨.outOfRange 0x200, by simp only [hostAnswer, hload], rfl, by simp only [hostCall, hload]⟩

/-- A block of at least one byte is read exactly where all its addresses exist (R54). -/
theorem block_ok_iff (s : State) (a : Nat) {n : Nat} (hn : 1 ≤ n) :
    (∃ bytes, s.block a n = .ok bytes ∧ bytes.length = n) ↔ ∀ k, k < n → a + k ≤ 0xFFF := by
  obtain ⟨hle, hblock⟩ | ⟨hgt, hblock⟩ := s.block_cases a n
  · exact iff_of_true ⟨_, hblock, Memory.readBytes_length ..⟩ fun k hk => by omega
  · refine iff_of_false (fun ⟨bytes, hok, _⟩ => ?_) fun hall => ?_
    · rw [hblock] at hok
      cases hok
    · have hlast := hall (n - 1) (by omega)
      omega

/-- Settles O49: each access by its bound, and the poked byte by the store's read after a write. -/
theorem accessesAreBoundedAndPokedBytesReadBack :
    Obligations.AccessesAreBoundedAndPokedBytesReadBack := by
  intro s a b hm
  refine ⟨fun h => ⟨s.peek_of_le h, _, s.poke_of_le b h, ?_, rfl, fun c hc => ?_⟩,
    fun h => ⟨⟨_, s.peek_of_gt h, rfl⟩, _, s.poke_of_gt b h, rfl⟩, fun n hn => block_ok_iff s a hn⟩
  · rw [State.peek_of_le _ h, State.readByte_writeByte hm, if_pos rfl]
  · rw [State.readByte_writeByte hm, if_neg hc]

end Sys2Proof.Machine
end

section
/-! Proofs about construction, the debug reads and the refusals (60_exceptions.md sections 5 and 8,
70_reset_and_hazards.md section 1). -/

namespace Sys2Proof.Machine

/-! ### Construction (R42, R260) -/

/-- The state after `new(w, h)` on the block `s`. -/
def State.constructed (s : State) (w h : Nat) : State :=
  (State.construct { s.cfg with width := w, height := h }).setDraws s.draws

theorem hostCall_construct (s : State) {w h : Nat} (hw : 1 ≤ w) (hh : 1 ≤ h) :
    hostCall (.construct w h) s = .next (s.constructed w h) :=
  if_pos (by simp [HostCall.wf, hw, hh])

/-- A new block's memory holds the construction contents. -/
theorem State.constructed_readByte (s : State) (w h a : Nat) :
    (s.constructed w h).readByte a = if a < 80 then s.cfg.font.getD a 0 else 0 := rfl

theorem State.constructed_getV (s : State) (w h : Nat) (r : RegIdx) : (s.constructed w h).getV r = 0 := by
  simp [State.constructed, State.construct, State.setDraws, State.getV, Vector.get_eq_getElem]

theorem State.constructed_isKeyPressed (s : State) (w h k : Nat) :
    (s.constructed w h).isKeyPressed k = false := by
  simp [State.constructed, State.construct, State.setDraws, State.isKeyPressed, Vector.get_eq_getElem]

theorem State.constructed_pixel (s : State) (w h px py : Nat) :
    (s.constructed w h).pixel px py = false :=
  Framebuffer.pixel_blank _ _ _ _ _ _

/-- Settles O50: each piece of the constructed state. -/
theorem constructionValues : Obligations.ConstructionValues := by
  intro w h s hw hh
  refine ⟨_, hostCall_construct s hw hh, rfl, fun a ha => ?_, fun a ha => ?_, s.constructed_getV w h, rfl,
    rfl, rfl, rfl, rfl, s.constructed_pixel w h, s.constructed_isKeyPressed w h, rfl⟩
  · rw [State.constructed_readByte, if_pos ha]
  · rw [State.constructed_readByte, if_neg (by omega)]

/-- Settles O51: `PC` starts where programs load, and the font stands at 0, five bytes a digit. -/
theorem entryPointAndGlyphAddresses : Obligations.EntryPointAndGlyphAddresses := by
  intro w h s hw hh hfont
  refine ⟨_, hostCall_construct s hw hh, rfl, fun bytes hlen => ?_, fun x d k hd hk => ⟨?_, ?_⟩⟩
  · have hm : Memory.wf (s.constructed w h).cfg.font (s.constructed w h).mem :=
      ⟨List.Pairwise.nil, fun c hc => absurd hc List.not_mem_nil⟩
    exact ⟨_, hostCall_loadProgram _ hlen, rfl, fun k hk => State.readByte_loaded hm _ hk⟩
  · have hin : 5 * d + k < s.cfg.font.length := by omega
    rw [State.constructed_readByte, if_pos (by omega), List.getD_eq_getElem?_getD,
      List.getElem?_eq_getElem hin, Option.getD_some]
  · refine ⟨_, exec_ldF x _, ?_⟩
    rw [State.advance_i, State.setI_i, State.getV_setV, if_pos rfl, glyphAddress_toNat, BitVec.toNat_ofNat]
    omega

/-! ### Debug reads (R250) -/

/-- Settles O56: each read answers its field; only a register number and an address are checked. -/
theorem debugReadsChangeNothing : Obligations.DebugReadsChangeNothing := by
  intro s
  refine ⟨fun _ => rfl, fun r => ?_, fun k hk => ?_, fun a ha => ?_, fun a ha => ?_,
    rfl, rfl, rfl, rfl, rfl, rfl, fun _ _ => rfl⟩
  · rw [hostAnswer, debugRead, State.tryGetV, dif_pos r.isLt]
    rfl
  · rw [hostAnswer, debugRead, State.tryGetV, dif_neg (by omega)]
    rfl
  · rw [hostAnswer, debugRead, s.peek_of_le ha]
    rfl
  · rw [hostAnswer, debugRead, s.peek_of_gt ha]
    rfl

/-! ### Refusals (R239, R262) -/

/-- A step is never refused. -/
theorem step_next (s : State) : ∃ t, step s = .next t := by
  cases hr : s.run with
  | awaitKey r => exact ⟨s, step_of_awaitKey hr⟩
  | faulted k => exact ⟨s, step_of_faulted hr⟩
  | running =>
    cases hf : fetchInstr s with
    | error e => exact ⟨_, step_of_fetchInstr_error hr hf⟩
    | ok i =>
      rw [step_of_fetchInstr_ok hr hf]
      exact exec_next i s

/-- A call with a legal input answers a next state. -/
theorem hostCall_next_of_wf {c : HostCall} (s : State) (h : c.wf = true) :
    ∃ t, hostCall c s = .next t := by
  cases c with
  | construct w h' => exact ⟨_, if_pos h⟩
  | loadProgram bytes =>
    cases hl : loadProgram bytes s with
    | ok t => exact ⟨t, by simp only [hostCall, hl]⟩
    | error e => exact ⟨s, by simp only [hostCall, hl]⟩
  | step => exact step_next s
  | tick => exact ⟨_, rfl⟩
  | pressKey key => exact ⟨_, if_pos h⟩
  | releaseKey key => exact ⟨_, if_pos h⟩
  | debug what => exact ⟨s, rfl⟩

/-- A call with an illegal input is a press, a release or a construction, and it is refused. -/
theorem hostCall_refused_of_not_wf {c : HostCall} (s : State) (h : ¬ c.wf = true) :
    (∃ r, hostCall c s = .refused r) ∧
      ((∃ key, 15 < key ∧ (c = .pressKey key ∨ c = .releaseKey key)) ∨
        ∃ w h, (w = 0 ∨ h = 0) ∧ c = .construct w h) := by
  cases c with
  | construct w h' =>
    refine ⟨⟨_, if_neg h⟩, .inr ⟨w, h', ?_, rfl⟩⟩
    simp only [HostCall.wf, Bool.and_eq_true, decide_eq_true_eq] at h
    omega
  | pressKey key =>
    refine ⟨⟨_, if_neg h⟩, .inl ⟨key, ?_, .inl rfl⟩⟩
    simp only [HostCall.wf, Config.numKeys, decide_eq_true_eq] at h
    omega
  | releaseKey key =>
    refine ⟨⟨_, if_neg h⟩, .inl ⟨key, ?_, .inr rfl⟩⟩
    simp only [HostCall.wf, Config.numKeys, decide_eq_true_eq] at h
    omega
  | _ => exact absurd rfl h

/-- Settles O55: a legal call answers a next state, and an illegal one is refused. -/
theorem onlyIllegalInputsAreRefused : Obligations.OnlyIllegalInputsAreRefused := by
  intro c s
  by_cases h : c.wf = true
  · exact .inl ⟨hostCall_next_of_wf s h, h⟩
  · exact .inr (hostCall_refused_of_not_wf s h)

/-! ### What a host call can do -/

/-- A call that answers a next state has a legal input. -/
theorem wf_of_hostCall_next {c : HostCall} {s t : State} (h : hostCall c s = .next t) : c.wf = true := by
  by_contra hwf
  obtain ⟨⟨r, hr⟩, -⟩ := hostCall_refused_of_not_wf s hwf
  rw [hr] at h
  cases h

theorem construct_next {w h : Nat} {s t : State} (ht : hostCall (.construct w h) s = .next t) :
    1 ≤ w ∧ 1 ≤ h ∧ t = s.constructed w h := by
  have hwf := wf_of_hostCall_next ht
  simp only [HostCall.wf, Bool.and_eq_true, decide_eq_true_eq] at hwf
  obtain ⟨hw, hh⟩ := hwf
  rw [hostCall_construct s hw hh] at ht
  cases ht
  exact ⟨hw, hh, rfl⟩

theorem loadProgram_next {bytes : List Byte} {s t : State}
    (ht : hostCall (.loadProgram bytes) s = .next t) :
    t = s ∨ 0x200 + bytes.length ≤ 4096 ∧
      t = s.setMem (Memory.writeBytes s.cfg.font s.mem 0x200 bytes) := by
  by_cases hlen : bytes.length ≤ 3584
  · rw [hostCall_loadProgram s hlen] at ht
    cases ht
    exact .inr ⟨by omega, rfl⟩
  · simp only [hostCall, loadProgram_of_gt s (Nat.lt_of_not_le hlen)] at ht
    cases ht
    exact .inl rfl

theorem pressKey_next {key : Nat} {s t : State} (ht : hostCall (.pressKey key) s = .next t) :
    ∃ k, t = resolveWait k (s.setKey k true) := by
  have hkey : key < 16 := of_decide_eq_true (wf_of_hostCall_next ht)
  rw [hostCall_pressKey ⟨key, hkey⟩] at ht
  cases ht
  exact ⟨_, rfl⟩

theorem releaseKey_next {key : Nat} {s t : State} (ht : hostCall (.releaseKey key) s = .next t) :
    ∃ k, t = s.setKey k false := by
  have hkey : key < 16 := of_decide_eq_true (wf_of_hostCall_next ht)
  rw [hostCall_releaseKey ⟨key, hkey⟩] at ht
  cases ht
  exact ⟨_, rfl⟩

end Sys2Proof.Machine
end

section
/-! Proofs about the run state over every host call (60_exceptions.md sections 2 to 5) and about `run`
(40_cycle.md section 4). -/

namespace Sys2Proof.Machine

/-! ### The run state under a host call -/

/-- Calls other than `new`, `step` and `press_key` leave the run state as it is. -/
theorem hostCall_run {c : HostCall} {s t : State} (ht : hostCall c s = .next t) :
    t.run = s.run ∨ c = .step ∨ (∃ key, c = .pressKey key) ∨ ∃ w h, c = .construct w h := by
  cases c with
  | construct w h => exact .inr (.inr (.inr ⟨w, h, rfl⟩))
  | loadProgram bytes =>
    obtain rfl | ⟨-, rfl⟩ := loadProgram_next ht
    · exact .inl rfl
    · exact .inl rfl
  | step => exact .inr (.inl rfl)
  | tick =>
    cases ht
    exact .inl rfl
  | pressKey key => exact .inr (.inr (.inl ⟨key, rfl⟩))
  | releaseKey key =>
    obtain ⟨k, rfl⟩ := releaseKey_next ht
    exact .inl rfl
  | debug what =>
    cases ht
    exact .inl rfl

/-- A press leaves a run state other than the wait, and ends the wait (R238). -/
theorem resolveWait_run (key : Fin 16) (s : State) :
    (∃ r, s.run = .awaitKey r ∧ (resolveWait key s).run = .running) ∨
      ((∀ r, s.run ≠ .awaitKey r) ∧ (resolveWait key s).run = s.run) := by
  by_cases hwait : ∃ r, s.run = .awaitKey r
  · obtain ⟨r, hr⟩ := hwait
    exact .inl ⟨r, hr, by rw [resolveWait_of_awaitKey key hr, State.setRun_run]⟩
  · have hno := not_exists.mp hwait
    exact .inr ⟨hno, by rw [resolveWait_of_not_awaitKey key hno]⟩

/-- Settles O10: a faulted step answers the state it is given, and a press resolves no fault. -/
theorem faultIsStickyUntilConstruction : Obligations.FaultIsStickyUntilConstruction := by
  intro s k hk
  refine ⟨step_of_faulted hk, stepReturn_of_faulted hk, fun c t ht => ?_⟩
  obtain hrun | rfl | ⟨key, rfl⟩ | hnew := hostCall_run ht
  · exact .inl (hrun.trans hk)
  · rw [hostCall, step_of_faulted hk] at ht
    cases ht
    exact .inl hk
  · obtain ⟨code, rfl⟩ := pressKey_next ht
    obtain ⟨r, hr, -⟩ | ⟨-, hrun⟩ := resolveWait_run code (s.setKey code true)
    · rw [State.setKey_run, hk] at hr
      cases hr
    · exact .inl (hrun.trans hk)
  · exact .inr hnew

/-! ### Entering and leaving the key wait (R246) -/

/-- Only `LD Vx, K` takes a running block into the wait. -/
theorem effect_enters_wait {i : Instr} {s : State} {r : RegIdx} (hs : s.run ≠ .awaitKey r)
    (h : (effect i s).run = .awaitKey r) : i = .ldVxK r := by
  obtain ⟨x, rfl⟩ := effect_run_ne (h.trans_ne hs.symm)
  rw [effect, State.advance_run, State.setRun_run] at h
  cases h
  rfl

theorem exec_enters_wait {i : Instr} {s t : State} {r : RegIdx} (h : exec i s = .next t)
    (hs : s.run ≠ .awaitKey r) (ht : t.run = .awaitKey r) : i = .ldVxK r := by
  obtain ⟨e, -, rfl⟩ | ⟨-, rfl⟩ := exec_cases h
  · cases ht
  · exact effect_enters_wait hs ht

/-- A step that enters the wait executes an `FX0A`. -/
theorem step_enters_wait {s t : State} {r : RegIdx} (h : step s = .next t) (hs : s.run ≠ .awaitKey r)
    (ht : t.run = .awaitKey r) :
    s.run = .running ∧ ∃ w, fetch s = .ok w ∧ decode w = .ok (.ldVxK r) := by
  obtain ⟨-, rfl⟩ | ⟨e, -, rfl⟩ | ⟨i, hr, hf, -, rfl⟩ := step_cases h
  · exact absurd ht hs
  · cases ht
  · obtain rfl := effect_enters_wait hs ht
    exact ⟨hr, fetchInstr_eq_ok_iff.mp hf⟩

/-- Of the host calls only the step enters the wait. -/
theorem hostCall_enters_wait {c : HostCall} {s t : State} {r : RegIdx} (h : hostCall c s = .next t)
    (hs : s.run ≠ .awaitKey r) (ht : t.run = .awaitKey r) : c = .step := by
  obtain hrun | hstep | ⟨key, rfl⟩ | ⟨w, h', rfl⟩ := hostCall_run h
  · exact absurd (hrun.symm.trans ht) hs
  · exact hstep
  · obtain ⟨code, rfl⟩ := pressKey_next h
    obtain ⟨_, -, hrun⟩ | ⟨-, hrun⟩ := resolveWait_run code (s.setKey code true)
    · rw [hrun] at ht
      cases ht
    · exact absurd (hrun.symm.trans ht) hs
  · obtain ⟨-, -, rfl⟩ := construct_next h
    cases ht

/-- Settles O11: entering is the effect of one instruction; a waiting step answers the state it is given, and
of the calls that are no step only a press or a construction writes the run state. -/
theorem keyWaitIsEnteredByLdVxKAndLeftByPressKey :
    Obligations.KeyWaitIsEnteredByLdVxKAndLeftByPressKey := by
  refine ⟨fun i s t r h hr ht => exec_enters_wait h (by simp [hr]) ht, fun c s t r h hs ht => ?_,
    fun s r hr => ?_⟩
  · obtain rfl := hostCall_enters_wait h hs ht
    exact ⟨rfl, step_enters_wait h hs ht⟩
  · refine ⟨step_of_awaitKey hr, stepReturn_of_awaitKey hr, fun c t h => ?_, hr, tick_dt_toNat s,
      tick_st_toNat s⟩
    obtain hrun | rfl | hpress | hnew := hostCall_run h
    · exact .inl (hrun.trans hr)
    · rw [hostCall, step_of_awaitKey hr] at h
      cases h
      exact .inl hr
    · exact .inr (.inl hpress)
    · exact .inr (.inr hnew)

/-! ### `run(stop_at_zero)` (R110, R111) -/

theorem atZeroWord_iff (s : State) : atZeroWord s = true ↔ s.run = .running ∧ s.pc.toNat ≤ 0xFFE ∧
    s.readByte s.pc.toNat = 0 ∧ s.readByte (s.pc.toNat + 1) = 0 := by
  have hpc : s.pc.toNat + 2 ≤ 4096 ↔ s.pc.toNat ≤ 0xFFE := by omega
  simp only [atZeroWord, Bool.and_eq_true, decide_eq_true_eq, Config.memSize, hpc, and_assoc]

theorem runLoop_of_stops {stop : Bool} {s : State} (h : (stop && atZeroWord s) = true) (fuel : Nat) :
    runLoop stop fuel s = .ok s := by
  cases fuel <;> rw [runLoop, if_pos h]

theorem runLoop_zero {stop : Bool} {s : State} (h : ¬ (stop && atZeroWord s) = true) :
    runLoop stop 0 s = .notYet s := by
  rw [runLoop, if_neg h]

/-- One round of the loop without the stop: the step, then its return value decides. -/
theorem runLoop_succ {stop : Bool} {s t : State} (h : ¬ (stop && atZeroWord s) = true)
    (ht : step s = .next t) (fuel : Nat) : runLoop stop (fuel + 1) s =
      ((stepReturn s).errKind.elim (runLoop stop fuel t) fun k => .err k t) := by
  rw [runLoop, if_neg h]
  simp only [ht]
  cases (stepReturn s).errKind <;> rfl

/-- A step at a zero word is UnknownOpcode (R86). -/
theorem stepReturn_at_zero {s : State} (hr : s.run = .running) (hpc : s.pc.toNat ≤ 0xFFE)
    (hhi : s.readByte s.pc.toNat = 0) (hlo : s.readByte (s.pc.toNat + 1) = 0) :
    stepReturn s = .err (.unknownOpcode 0) := by
  have hfetch := fetch_of_le hpc
  rw [hhi, hlo] at hfetch
  exact (unknownWordsRaiseUnknownOpcode 0).right s hr hfetch (.inl (by decide))

/-- While the block awaits a key the loop goes round without returning. -/
theorem runLoop_of_awaitKey {s : State} {r : RegIdx} (hr : s.run = .awaitKey r) (stop : Bool) (fuel : Nat) :
    runLoop stop fuel s = .notYet s := by
  have hgo : ¬ (stop && atZeroWord s) = true := by simp [atZeroWord, hr]
  induction fuel with
  | zero => exact runLoop_zero hgo
  | succ fuel ih =>
    rw [runLoop_succ hgo (step_of_awaitKey hr), stepReturn_of_awaitKey hr]
    exact ih

/-- Settles O57: the stop test is made before each step; without the stop the step's return value decides, and
at a zero word it is UnknownOpcode. -/
theorem runStopsAtZeroAndWaitsForKeys : Obligations.RunStopsAtZeroAndWaitsForKeys := by
  intro s fuel
  refine ⟨fun hr hpc hhi hlo => ⟨?_, ?_⟩, fun stop hstop => ?_, fun r stop hr => ?_⟩
  · exact runLoop_of_stops (stop := true) ((atZeroWord_iff s).mpr ⟨hr, hpc, hhi, hlo⟩) fuel
  · have herr := stepReturn_at_zero hr hpc hhi hlo
    obtain ⟨t, ht, hfault⟩ := failedStepChangesOnlyTheRunState s _ herr
    refine ⟨t, ?_, hfault⟩
    rw [runLoop_succ (by simp) ht, herr]
    rfl
  · have hgo : ¬ (stop && atZeroWord s) = true := by
      rw [Bool.and_eq_true, atZeroWord_iff]
      exact fun ⟨hset, hzero⟩ => hstop hset hzero
    refine ⟨runLoop_zero hgo, fun t ht => ⟨fun ran h => ?_, fun e h => ?_, fun k h => ?_⟩⟩ <;>
      rw [runLoop_succ hgo ht, h] <;> rfl
  · exact runLoop_of_awaitKey hr stop fuel

end Sys2Proof.Machine
end

section
/-! The invariant: it holds of every construction, and every instruction, step and host call keeps it. -/

namespace Sys2Proof.Machine

/-! ### Construction (R42, R260) -/

theorem construct_inv {cfg : Config} (h : cfg.wf = true) : (State.construct cfg).Inv where
  cfg := h
  mem := ⟨List.Pairwise.nil, fun _ hc => absurd hc List.not_mem_nil⟩
  fb := Framebuffer.blank_wf _ _
  depth := Nat.zero_le _
  returns _ ha := absurd ha List.not_mem_nil
  pc := (by decide : (0x200#16).toNat ≤ 0x10FE)
  kind := RunState.noConfusion

/-- Settles O52: the canonical reset is a legal construction. -/
theorem constructionMeetsTheInvariant : Obligations.ConstructionMeetsTheInvariant :=
  ⟨construct_inv (by decide), fun _ => construct_inv⟩

/-! ### What each update needs -/

/-- Memory written inside its bound keeps the invariant. -/
theorem State.Inv.setMem_writeBytes {s : State} (h : s.Inv) {a : Nat} {bytes : List Byte}
    (hlen : a + bytes.length ≤ 4096) : (s.setMem (Memory.writeBytes s.cfg.font s.mem a bytes)).Inv :=
  { h with mem := Memory.writeBytes_wf bytes a h.mem hlen }

/-- A change of the run state to anything but InvalidRegister keeps the invariant. -/
theorem State.Inv.setRun {s : State} (h : s.Inv) {r : RunState} (hr : r ≠ .faulted .invalidRegister) :
    (s.setRun r).Inv :=
  { h with kind := hr }

/-! ### The effect of an instruction, piece by piece -/

/-- Only `LD B` and `LD [I], Vx` write memory, both inside it. -/
theorem effect_mem_wf {i : Instr} {s : State} (hn : raises i s = none)
    (hm : Memory.wf s.cfg.font s.mem) : Memory.wf s.cfg.font (effect i s).mem := by
  cases i with
  | ldB x =>
    rw [raises_ldB] at hn
    have hlen : ¬ 4096 < s.i.toNat + 3 := fun hgt => by simp [hgt] at hn
    exact Memory.writeBytes_wf _ _ hm (Nat.le_of_not_lt hlen)
  | storeRegs x =>
    by_cases hin : s.i.toNat < 4096
    · refine Memory.writeBytes_wf _ _ hm ?_
      rw [firstRegs_length _ (transferCount_le _ x), transferCount, Config.memSize]
      omega
    · have hzero : transferCount s.i.toNat x = 0 := by
        rw [transferCount, Config.memSize]
        omega
      rw [effect, hzero]
      exact hm
  | _ => exact hm

/-- Only `CLS` and `DRW` write the framebuffer, both in its shape. -/
theorem effect_fb_wf (i : Instr) {s : State} (hf : Framebuffer.wf s.cfg.width s.cfg.height s.fb) :
    Framebuffer.wf s.cfg.width s.cfg.height (effect i s).fb := by
  cases i with
  | cls => exact Framebuffer.blank_wf _ _
  | drw x y n => exact effect_drw_fb_wf hf x y n
  | _ => exact hf

/-- Only `CALL` grows the stack, and not past its bound. -/
theorem effect_stack_length {i : Instr} {s : State} (hn : raises i s = none) (hd : s.stack.length ≤ 16) :
    (effect i s).stack.length ≤ 16 := by
  cases i with
  | ret =>
    rw [effect, State.setPC_stack, State.setStack_stack, List.length_dropLast]
    omega
  | call nnn =>
    rw [raises_call] at hn
    have hlen : ¬ 16 ≤ s.stack.length := fun hge => by simp [hge] at hn
    rw [effect, State.setPC_stack, State.setStack_stack, List.length_append, List.length_singleton]
    omega
  | _ => exact hd

/-- A return address is that of an instruction that was fetched, so at most `0x1000`. -/
theorem effect_stack_le {i : Instr} {s : State} (hpc : s.pc.toNat ≤ 0xFFE)
    (hr : ∀ a ∈ s.stack, a.toNat ≤ 0x1000) : ∀ a ∈ (effect i s).stack, a.toNat ≤ 0x1000 := by
  cases i with
  | ret => exact fun a ha => hr a (List.dropLast_subset _ ha)
  | call nnn =>
    intro a ha
    rw [effect, State.setPC_stack, State.setStack_stack, List.mem_append, List.mem_singleton] at ha
    obtain ha | rfl := ha
    · exact hr a ha
    · rw [pc_add_two hpc]
      omega
  | _ => exact hr

/-- The last entry of the stack is one of its entries, or 0 stands for it. -/
theorem getLastD_stack_le {stack : List Word} (hr : ∀ a ∈ stack, a.toNat ≤ 0x1000) :
    (stack.getLastD 0).toNat ≤ 0x1000 := by
  obtain rfl | ⟨rest, a, rfl⟩ := List.eq_nil_or_concat' stack
  · decide
  · rw [List.getLastD_concat]
    exact hr a (by simp)

/-- The next `PC` is at most that of the highest `BNNN` (R26). -/
theorem nextPCValue_le (i : Instr) {s : State} (hpc : s.pc.toNat ≤ 0xFFE)
    (hr : ∀ a ∈ s.stack, a.toNat ≤ 0x1000) : nextPCValue i s ≤ 0x10FE := by
  cases i with
  | jp nnn | call nnn => exact nnn.isLt.le.trans (by decide)
  | ret => exact (getLastD_stack_le hr).trans (by decide)
  | jpV0 nnn =>
    have hnnn := nnn.isLt
    have hv0 := (s.getV 0).isLt
    rw [nextPCValue]
    omega
  | seByte _ _ | sneByte _ _ | seReg _ _ | sneReg _ _ | skp _ | sknp _ =>
    rw [nextPCValue]
    split <;> omega
  | _ => exact (Nat.add_le_add_right hpc 2).trans (by decide)

/-- No instruction but `LD Vx, K` writes the run state, and that one writes the wait. -/
theorem effect_run_ne_faulted (i : Instr) {s : State} {k : ErrorKind} (hs : s.run ≠ .faulted k) :
    (effect i s).run ≠ .faulted k := by
  cases i with
  | ldVxK x => exact RunState.noConfusion
  | _ => exact hs

/-- An instruction that is fetched and raises nothing keeps the invariant. -/
theorem effect_inv {i : Instr} {s : State} (h : s.Inv) (hpc : s.pc.toNat ≤ 0xFFE)
    (hn : raises i s = none) : (effect i s).Inv where
  cfg := by rw [effect_cfg]; exact h.cfg
  mem := by rw [effect_cfg]; exact effect_mem_wf hn h.mem
  fb := by rw [effect_cfg]; exact effect_fb_wf i h.fb
  depth := effect_stack_length hn h.depth
  returns := effect_stack_le hpc h.returns
  pc := by rw [effect_pc_toNat i hpc]; exact nextPCValue_le i hpc h.returns
  kind := effect_run_ne_faulted i h.kind

/-! ### Steps and host calls -/

/-- No step returns InvalidRegister (R21). -/
theorem kind_ne_invalidRegister_of_stepReturn {s : State} {e : CoreError} (h : stepReturn s = .err e) :
    e.kind ≠ .invalidRegister := by
  obtain ⟨-, hf | ⟨i, -, hi⟩⟩ := stepReturn_eq_err_iff.mp h
  · obtain ⟨-, rfl⟩ | ⟨w, -, -, rfl⟩ := fetchInstr_eq_error_iff.mp hf <;> exact ErrorKind.noConfusion
  · exact kind_ne_invalidRegister_of_raises hi

/-- An instruction is fetched only where both its bytes exist (R55). -/
theorem pc_le_of_fetchInstr_ok {s : State} {i : Instr} (h : fetchInstr s = .ok i) :
    s.pc.toNat ≤ 0xFFE := by
  by_contra hgt
  rw [fetchInstr_of_fetch_error (fetch_of_ge (by omega))] at h
  cases h

/-- Settles O53: a step leaves the state, records a fault that is not InvalidRegister, or has the effect of an
instruction that it fetched. -/
theorem stepKeepsTheInvariant : Obligations.StepKeepsTheInvariant := by
  intro s t hs h
  obtain ⟨-, rfl⟩ | ⟨e, he, rfl⟩ | ⟨i, -, hf, hn, rfl⟩ := step_cases h
  · exact hs
  · refine hs.setRun fun hk => kind_ne_invalidRegister_of_stepReturn he ?_
    exact RunState.faulted.inj hk
  · exact effect_inv hs (pc_le_of_fetchInstr_ok hf) hn

/-- A press keeps the invariant: it writes a flag, and at most a register and the run state `running`. -/
theorem State.Inv.resolveWait {s : State} (h : s.Inv) (key : Fin 16) : (resolveWait key s).Inv := by
  by_cases hwait : ∃ r, s.run = .awaitKey r
  · obtain ⟨r, hr⟩ := hwait
    rw [resolveWait_of_awaitKey key hr]
    exact { h with kind := RunState.noConfusion }
  · rw [resolveWait_of_not_awaitKey key (not_exists.mp hwait)]
    exact h

/-- Every host call keeps the invariant. -/
theorem hostCall_inv {c : HostCall} {s t : State} (hs : s.Inv) (h : hostCall c s = .next t) : t.Inv := by
  cases c with
  | construct width height =>
    obtain ⟨hw, hh, rfl⟩ := construct_next h
    have hcfg : (Config.mk width height s.cfg.font).wf = true := by
      have hold := hs.cfg
      simp_all [Config.wf]
    exact { construct_inv hcfg with }
  | loadProgram bytes =>
    obtain rfl | ⟨hlen, rfl⟩ := loadProgram_next h
    · exact hs
    · exact hs.setMem_writeBytes hlen
  | step => exact stepKeepsTheInvariant s t hs h
  | tick =>
    cases h
    exact { hs with }
  | pressKey key =>
    obtain ⟨k, rfl⟩ := pressKey_next h
    exact State.Inv.resolveWait (s := s.setKey k true) { hs with } k
  | releaseKey key =>
    obtain ⟨k, rfl⟩ := releaseKey_next h
    exact { hs with }
  | debug what =>
    cases h
    exact hs

/-- Settles O54: by induction on the calls, each of which keeps the invariant. -/
theorem everyInterleavingKeepsTheInvariant : Obligations.EveryInterleavingKeepsTheInvariant := by
  intro calls
  induction calls with
  | nil =>
    intro s t hs h
    cases h
    exact hs
  | cons c cs ih =>
    intro s t hs h
    cases hc : hostCall c s with
    | next u =>
      simp only [hostCalls, hc] at h
      exact ih u t (hostCall_inv hs hc) h
    | fault r => cases r
    | refused r =>
      simp only [hostCalls, hc] at h
      cases h

end Sys2Proof.Machine
end
